-- ==== Sys2Proof/Word.lean ====
section
/-! DEFINITION. The words of the block: a byte of the buffer, the 80-bit command and response word, the 64-bit
value port and the 8-bit width operand (spec/00_scope.md R10, spec/30_encoding.md R60, R66). -/

namespace Sys2Proof

/-- A byte of the buffer or of a payload (R10: byte size 8 bits; a character is a byte, 43_string_packer.md). -/
abbrev Byte := BitVec 8

/-- A command word `CW` or a response word `RW` (R60, R66). -/
abbrev CmdWord := BitVec 80

/-- A value on the 64-bit value port, `CW[63:0]` or `RW[63:0]` (R10, R13). -/
abbrev Val := BitVec 64

/-- The width operand `w = CW[71:64]` (R60). -/
abbrev Width := BitVec 8

end Sys2Proof
end

