-- ==== Sys2Proof/Config.lean ====
section
/-! DEFINITION. The values the spec leaves unspecified. Each is an uninterpreted constant: no proof can see a value of it,
so a claim proved of the model holds whatever the block gives there. (The capacity BUF_CAP, which each implementation
decides, is carried by State as the field bufCap that no step writes: log entry 1.) -/

namespace Sys2Proof.Config

/-- `RW.value` of the response of a faulting command (spec/60_exceptions.md R178, spec/92_eei_decisions.md D20: "any claim
that depends on them is unprovable"). The argument is State's counter of draws. DESIGN CHOICE, log entry 6:
safe, but for a claim that two runs agree in it. -/
opaque faultValue : Nat → Val

/-- The bytes a faulting readString has given on payload-out, "unspecified in number and content" (spec/30_encoding.md
R67, spec/60_exceptions.md R178). The argument is State's counter of draws. DESIGN CHOICE, log entry 7:
safe, but for a claim that two runs agree in it. -/
opaque faultPayload : Nat → List Byte

/-- `RW.value` of getBuf or readString when the count to report is 2^64 or more, for which the 64-bit field of
spec/30_encoding.md R66 has no stated result. The argument is the count. DESIGN CHOICE, log entry 8:
safe, but for a claim that two runs agree in it. -/
opaque overlongCount : Nat → Val

end Sys2Proof.Config
end

