-- ==== Sys2Proof/Syntax.lean ====
section
/-! DEFINITION. The fifteen commands of the block (spec/30_encoding.md R61, spec/opcode_table.json), one constructor
per row, and the pair a host presents on the command and payload-in channels (R65, R69). -/

namespace Sys2Proof

/-- A command with the operands it uses (R61, column "uses"). The fields a command ignores (R62) are no operands.
For load and addString the operand is the payload itself: its length is the `N = val` of R65. -/
inductive Instr where
  /-- 0x00 `init()`: construct an empty codec (R90). -/
  | init
  /-- 0x01 `load(b0 b1 …)`: construct from an existing byte sequence (R91). -/
  | load (payload : List Byte)
  /-- 0x02 `addBit(value)`, `value = val[0]` (R95). -/
  | addBit (value : Bool)
  /-- 0x03 `readBit()` (R96). -/
  | readBit
  /-- 0x04 `addUint(value, bits)`, `bits = w` (R111). -/
  | addUint (value : Val) (bits : Width)
  /-- 0x05 `readUint(bits)` (R113). -/
  | readUint (bits : Width)
  /-- 0x06 `addInt(value, bits)`, the value in two's complement on the port (R115, R13). -/
  | addInt (value : Val) (bits : Width)
  /-- 0x07 `readInt(bits)` (R117). -/
  | readInt (bits : Width)
  /-- 0x08 `addFloat(value)`, the binary32 pattern `val[31:0]` (R133). -/
  | addFloat (pattern : BitVec 32)
  /-- 0x09 `readFloat()` (R137). -/
  | readFloat
  /-- 0x0A `addDouble(value)`, the binary64 pattern `val[63:0]` (R141). -/
  | addDouble (pattern : BitVec 64)
  /-- 0x0B `readDouble()` (R145). -/
  | readDouble
  /-- 0x0C `addString(value)`, the characters without the terminator (R160). -/
  | addString (chars : List Byte)
  /-- 0x0D `readString()` (R161). -/
  | readString
  /-- 0x0E `getBuf()` (R92). -/
  | getBuf
  deriving DecidableEq, Repr

/-- What the host presents: "the abstract command of the model is (word, byte list)" (R65). -/
structure HostCommand where
  /-- The command word on the command channel (R60). -/
  word : CmdWord
  /-- The bytes on payload-in, in order (R54, R69). -/
  payload : List Byte
  deriving DecidableEq, Repr

end Sys2Proof
end

