-- ==== Sys2Proof/WellFormed.lean ====
section
/-! DEFINITION. Which commands keep the contracts of spec/30_encoding.md: the widths of R64 and a payload whose length
fits the 64-bit field `N = val` of R65. A command with an illegal width still has a meaning (it answers IllegalWidth,
R64, R173); it is not a well-formed one. -/

namespace Sys2Proof

/-- The width contract `bits: lo..64` (R64). -/
def widthLegal (lo : Nat) (bits : Width) : Bool :=
  decide (lo ≤ bits.toNat) && decide (bits.toNat ≤ 64)

/-- The payload's length is a value of `val[63:0]` (R60, R65). -/
def payloadFits (payload : List Byte) : Bool :=
  decide (payload.length < 2 ^ 64)

/-- The commands of R84's first kind: one of the fifteen, with a legal width and a payload that has a length word. -/
def WellFormed : Instr → Bool
  | .init => true
  | .load payload => payloadFits payload
  | .addBit _ => true
  | .readBit => true
  | .addUint _ bits => widthLegal 1 bits
  | .readUint bits => widthLegal 1 bits
  | .addInt _ bits => widthLegal 2 bits
  | .readInt bits => widthLegal 2 bits
  | .addFloat _ => true
  | .readFloat => true
  | .addDouble _ => true
  | .readDouble => true
  | .addString chars => payloadFits chars
  | .readString => true
  | .getBuf => true

end Sys2Proof
end

