-- ==== Sys2Proof/Decode.lean ====
section
/-! DEFINITION. The decoder of a command (spec/30_encoding.md R60 to R65, R84), total on every pair of an 80-bit word and
a payload and rejecting by name, and after it the encoder, written from the same table. -/

namespace Sys2Proof

/-- Why a presented pair is not one of the fifteen commands. -/
inductive DecodeReject where
  /-- A reserved opcode 0x0F to 0xFF: the block answers IllegalCommand (R63, R175). -/
  | illegalCommand
  /-- The payload list has not the length `N` of R65: "a pair whose list length differs from N is not a command". -/
  | payloadLength
  deriving DecidableEq, Repr

/-- `CW[79:72]` (R60). -/
def fieldOp (cw : CmdWord) : BitVec 8 := cw.extractLsb' 72 8

/-- `CW[71:64]` (R60). -/
def fieldW (cw : CmdWord) : Width := cw.extractLsb' 64 8

/-- `CW[63:0]` (R60). -/
def fieldVal (cw : CmdWord) : Val := cw.extractLsb' 0 64

/-- How many bytes the block takes from payload-in after the word: `N = val` for load and addString (R65), none for
every other command and for a reserved opcode (R61, R63). -/
def payloadCount (cw : CmdWord) : Nat :=
  if fieldOp cw = 0x01#8 ∨ fieldOp cw = 0x0C#8 then (fieldVal cw).toNat else 0

/-- The opcode map (R61). Only the fields a command uses are looked at (R62); `w` and `val` are used as they stand
(R84). -/
def decodeOp (op : BitVec 8) (w : Width) (val : Val) (payload : List Byte) : Except DecodeReject Instr :=
  match op.toNat with
  | 0x00 => .ok .init
  | 0x01 => .ok (.load payload)
  | 0x02 => .ok (.addBit (val.getLsbD 0))
  | 0x03 => .ok .readBit
  | 0x04 => .ok (.addUint val w)
  | 0x05 => .ok (.readUint w)
  | 0x06 => .ok (.addInt val w)
  | 0x07 => .ok (.readInt w)
  | 0x08 => .ok (.addFloat (val.extractLsb' 0 32))
  | 0x09 => .ok .readFloat
  | 0x0A => .ok (.addDouble val)
  | 0x0B => .ok .readDouble
  | 0x0C => .ok (.addString payload)
  | 0x0D => .ok .readString
  | 0x0E => .ok .getBuf
  | _ => .error .illegalCommand

/-- The decoder. An illegal width decodes: the command itself answers IllegalWidth (R64, R111; log entry 12). -/
def decode (c : HostCommand) : Except DecodeReject Instr :=
  if c.payload.length = payloadCount c.word then
    decodeOp (fieldOp c.word) (fieldW c.word) (fieldVal c.word) c.payload
  else
    .error .payloadLength

/-- A command word from its three fields (R60). -/
def packWord (op : BitVec 8) (w : Width) (val : Val) : CmdWord := op ++ w ++ val

/-- The opcode of a command (R61). -/
def opcode : Instr → BitVec 8
  | .init => 0x00
  | .load _ => 0x01
  | .addBit _ => 0x02
  | .readBit => 0x03
  | .addUint _ _ => 0x04
  | .readUint _ => 0x05
  | .addInt _ _ => 0x06
  | .readInt _ => 0x07
  | .addFloat _ => 0x08
  | .readFloat => 0x09
  | .addDouble _ => 0x0A
  | .readDouble => 0x0B
  | .addString _ => 0x0C
  | .readString => 0x0D
  | .getBuf => 0x0E

/-- The `w` field of a command's word; zero where the command does not use it ("an assembler writes zeros there", R62). -/
def encodeW : Instr → Width
  | .addUint _ bits => bits
  | .readUint bits => bits
  | .addInt _ bits => bits
  | .readInt bits => bits
  | _ => 0

/-- The `val` field of a command's word (R61, R65); zero where the command does not use it (R62). -/
def encodeVal : Instr → Val
  | .load payload => BitVec.ofNat 64 payload.length
  | .addBit value => BitVec.ofNat 64 value.toNat
  | .addUint value _ => value
  | .addInt value _ => value
  | .addFloat pattern => pattern.setWidth 64
  | .addDouble pattern => pattern
  | .addString chars => BitVec.ofNat 64 chars.length
  | _ => 0

/-- The payload of a command (R65). -/
def encodePayload : Instr → List Byte
  | .load payload => payload
  | .addString chars => chars
  | _ => []

/-- The word and payload of a command, as an assembler writes them (R60 to R62, R65). -/
def encode (i : Instr) : HostCommand :=
  { word := packWord (opcode i) (encodeW i) (encodeVal i), payload := encodePayload i }

/-- The pair whose command word has the bits `w` (bit 0 the least significant bit of the 80-bit word, R11) and whose
payload, where the word asks for one, is all zero bytes (log entry 3). -/
def tableCommand (nbits w : Nat) : HostCommand :=
  let cw : CmdWord := BitVec.ofNat 80 (w % 2 ^ nbits)
  { word := cw, payload := List.replicate (payloadCount cw) 0 }

/-- The instruction the decoder reads from the table word `w` of `nbits` bits; none where it rejects it. The payload
of `tableCommand` has the length the word asks for, so the length check of `decode` is met and not run again
(`Sys2Proof.Laws.decodeTableWord_eq_decode`). -/
def decodeTableWord (nbits w : Nat) : Option Instr :=
  let c := tableCommand nbits w
  (decodeOp (fieldOp c.word) (fieldW c.word) (fieldVal c.word) c.payload).toOption

end Sys2Proof
end

