-- ==== Sys2Proof/Machine/State.lean ====
section
/-! DEFINITION. The state of the block as plain data (spec/10_state.md R20 to R33), the faults of spec/60_exceptions.md
as the codes a response reports, the response (spec/30_encoding.md R66, R67), and the reset state (R33, R200). -/

namespace Sys2Proof.Machine

/-- The buffer's valid bytes as (index, byte) cells in canonical form: indexes strictly rising, no zero byte listed. An
index that is not listed reads 0x00 (`Memory.read`, log entry 9). -/
abbrev Memory := List Host.Cell

/-- The five faults of R170. They stop a COMMAND, never the machine: the command ends with a response that reports the
fault (R178) and the next command is taken (R182). So they are no `Fault` of a step. -/
inductive FaultCode where
  /-- Code 1: a `ReadBit` step finds no byte at the cursor (R171). -/
  | outOfBounds
  /-- Code 2: a `WriteBit` step, or a load, needs more than BUF_CAP bytes (R172). -/
  | bufferFull
  /-- Code 3: `w` outside the contract (R173). -/
  | illegalWidth
  /-- Code 4: an infinity or a NaN as operand (R174). -/
  | unsupportedFloat
  /-- Code 5: a reserved opcode (R175). -/
  | illegalCommand
  deriving DecidableEq, Repr

/-- What the block gives on the response and payload-out channels for one command (R66, R67, R69). -/
structure Response where
  /-- `RW[79:72]`: 0 for OK, else the code of the fault (R66, R170). -/
  status : BitVec 8
  /-- `RW[71:64]`: the sticky flags after the command in bits 4 to 0, zeros above (R66). -/
  errs : BitVec 8
  /-- `RW[63:0]`: the result; unspecified when `status` is not 0 (R66, R178). -/
  value : Val
  /-- The payload-out bytes, in order, before the response word (R54, R69). -/
  out : List Byte
  deriving DecidableEq, Repr

/-- The response word `RW` (R66). -/
def Response.word (r : Response) : CmdWord := r.status ++ r.errs ++ r.value

/-- What the host does to the block, one item at a time, in the order it does it. -/
inductive HostInput where
  /-- A command word with its payload (R65, R69). -/
  | command (c : HostCommand)
  /-- A reset: between two commands (`none`), or while the given command is running, which it ends without a response
  (R200, R201; log entry 11). -/
  | reset (during : Option HostCommand)
  deriving DecidableEq, Repr

/-- The state. `buf`, `len`, `cursor` and `err` are the spec's four elements (R22 to R25); `pending` and `responses` are
the host's side of the four channels (R69); `bufCap` is the parameter BUF_CAP (R10), a constant of the instance;
`freeCount` is the model's own counter of unspecified results drawn (log entry 6). -/
structure State where
  /-- The valid bytes `buf[0 .. len-1]` (R22). -/
  buf : Memory
  /-- The number of valid bytes (R23). -/
  len : Nat
  /-- The position of the next bit to write or read (R24). -/
  cursor : Nat
  /-- The sticky fault flags `err[4:0]` (R25). -/
  err : BitVec 5
  /-- The capacity in bytes, `none` for unbounded (R10, D2); no step writes it (log entry 1). -/
  bufCap : Option Nat
  /-- What the host has issued and the block has not taken yet, next first (R69, R212; log entry 3). -/
  pending : List HostInput
  /-- The responses given so far, oldest first (R66, R69, R216; log entry 5). -/
  responses : List Response
  /-- The model's own: how many unspecified results have been drawn (log entry 6). -/
  freeCount : Nat
  deriving DecidableEq, Repr

/-- What would stop the machine. It has no constructor: the spec gives the block no state from which it does not go on,
since every fault is reported in a response and "the next command is accepted and executed" (R182). Safe: nothing is
cut short. -/
inductive Fault : Type
  deriving DecidableEq, Repr

/-- Why the model gives a step no meaning. -/
inductive Refusal where
  /-- Raised by an arm of `exec` for an instruction without a meaning; no arm raises it in this model. Safe. -/
  | notModelled (mnemonic : String)
  /-- Raised by `step` for a pending pair whose payload has not the length the word asks for: "a pair whose list length
  differs from N is not a command and a model refuses it at its boundary" (R65). Safe: nothing is claimed of it. -/
  | payloadLength
  deriving DecidableEq, Repr

/-- The state after reset (R33, R200): an empty codec. The capacity is unbounded, as the spec's own vectors take it
(95_test_vectors.md; DESIGN CHOICE, log entry 1), and the host has issued nothing and been given nothing yet (log
entries 3, 5, 6). -/
def State.reset : State :=
  { buf := [], len := 0, cursor := 0, err := 0, bufCap := none, pending := [], responses := [], freeCount := 0 }

end Sys2Proof.Machine
end

