-- ==== Sys2Proof/Machine/Flags.lean ====
section
/-! DEFINITION. The sticky fault flags and the status codes (spec/10_state.md R25, spec/60_exceptions.md R170, R179). -/

namespace Sys2Proof.Machine

/-- The number of a fault, 1 to 5 (R170). -/
def FaultCode.number : FaultCode → Nat
  | .outOfBounds => 1
  | .bufferFull => 2
  | .illegalWidth => 3
  | .unsupportedFloat => 4
  | .illegalCommand => 5

/-- `RW.status` for a fault (R66, R170). -/
def FaultCode.status (c : FaultCode) : BitVec 8 := BitVec.ofNat 8 c.number

/-- "When a command ends with fault code `c` (1 to 5), `err[c-1]` is set" (R179); the other flags stay. -/
def setFlag (c : FaultCode) (err : BitVec 5) : BitVec 5 := err ||| (1#5 <<< (c.number - 1))

/-- `RW.errs`: the flags in bits 4 to 0, zeros in bits 7 to 5 (R66). -/
def errsField (err : BitVec 5) : BitVec 8 := err.setWidth 8

end Sys2Proof.Machine
end

