-- ==== Sys2Proof/Machine/Memory.lean ====
section
/-! DEFINITION. Reading and writing one byte of the buffer (spec/00_scope.md R12: MemRead, MemWrite) and the canonical form
of its cells. -/

namespace Sys2Proof.Machine

/-- What an index with no cell reads as: 0x00, the value a byte has when `len` grows over it (R23; log entry 9). -/
def Memory.unlisted : Byte := 0#8

/-- `MemRead(a, 1)` (R12). -/
def Memory.read : Memory → Nat → Byte
  | [], _ => Memory.unlisted
  | (k, v) :: rest, a => if k = a then v else Memory.read rest a

/-- A cell in front of the cells `rest`, unless its byte is what an unlisted index reads as. -/
def Memory.cell (a : Nat) (v : Byte) (rest : Memory) : Memory :=
  if v = Memory.unlisted then rest else (a, v) :: rest

/-- `MemWrite(a, 1, v)` (R12), keeping the canonical form. -/
def Memory.write : Memory → Nat → Byte → Memory
  | [], a, v => Memory.cell a v []
  | (k, u) :: rest, a, v =>
    if k < a then (k, u) :: Memory.write rest a v
    else if k = a then Memory.cell a v rest
    else Memory.cell a v ((k, u) :: rest)

/-- Canonical form from index `lo` on: indexes at least `lo`, strictly rising, and no byte that an unlisted index
reads as. -/
def Memory.wfFrom : Nat → Memory → Bool
  | _, [] => true
  | lo, (k, v) :: rest => decide (lo ≤ k) && (v != Memory.unlisted) && Memory.wfFrom (k + 1) rest

/-- The canonical form. -/
def Memory.wf (m : Memory) : Bool := Memory.wfFrom 0 m

/-- Every listed index is below `n`: no cell at index `len` or above is state (R22). -/
def Memory.below (n : Nat) (m : Memory) : Bool := m.all fun c => decide (c.1 < n)

/-- The cells of a byte sequence placed from index `a` on. -/
def Memory.ofBytesFrom : Nat → List Byte → Memory
  | _, [] => []
  | a, b :: rest => Memory.cell a b (Memory.ofBytesFrom (a + 1) rest)

/-- The buffer that holds the byte sequence: `buf[i] = bytes[i]` (R54, R91). -/
def Memory.ofBytes (bytes : List Byte) : Memory := Memory.ofBytesFrom 0 bytes

/-- `n` bytes from index `a` on, in index order (R54). -/
def Memory.bytesFrom (m : Memory) : Nat → Nat → List Byte
  | _, 0 => []
  | a, n + 1 => Memory.read m a :: Memory.bytesFrom m (a + 1) n

end Sys2Proof.Machine
end

