-- ==== Sys2Proof/Machine/Operands.lean ====
section
/-! DEFINITION. The forms operands and results take on the value port (spec/00_scope.md R12, R13) and the floating-point
functions FDECOMP and FRECOMP (spec/42_float_packer.md R130 to R136, R140, R144), written once over a format and used at
binary32 and binary64. -/

namespace Sys2Proof.Machine

/-- `zext_64(v)` of a natural number below 2^64 (R12). -/
def zext64 (v : Nat) : Val := BitVec.ofNat 64 v

/-- `sext_64(v)`: the 64-bit two's complement pattern of a signed number (R12, R13). -/
def sext64 (v : Int) : Val := BitVec.ofInt 64 v

/-- `signed_64(u)`: the signed number a pattern stands for (R12, R13). -/
def signed64 (u : Val) : Int := u.toInt

/-- The sign bit of the signed field: 1 exactly when `v < 0` (R72, R114). -/
def signBit (v : Int) : Bool := decide (v < 0)

/-- The magnitude of the signed field: `v` for `v ≥ 0`, `-v - 1` for `v < 0` (R72, R114). -/
def magnitude (v : Int) : Nat := if 0 ≤ v then v.toNat else (-v - 1).toNat

/-- The signed number of a sign bit and a magnitude: `m`, or `-m - 1` when the sign is set (R72, R116). -/
def signedOf (sign : Bool) (m : Nat) : Int := if sign then -(m : Int) - 1 else (m : Int)

/-- A binary floating-point format by the widths of its exponent and fraction fields (R10, R130, R131). -/
structure FloatFmt where
  /-- Width of the exponent field. -/
  eb : Nat
  /-- Width of the fraction field. -/
  fb : Nat
  deriving DecidableEq, Repr

/-- The 32-bit float: 8 exponent bits, 23 fraction bits (R10, R130). -/
def float32 : FloatFmt := { eb := 8, fb := 23 }

/-- The 64-bit float: 11 exponent bits, 52 fraction bits (R10, R131). -/
def float64 : FloatFmt := { eb := 11, fb := 52 }

/-- The bias of the pattern's exponent: 127 or 1023 (R130, R131). -/
def FloatFmt.bias (f : FloatFmt) : Nat := 2 ^ (f.eb - 1) - 1

/-- The least exponent of a normal number: -126 or -1022 (R136, R144). -/
def FloatFmt.minExp (f : FloatFmt) : Int := 1 - (f.bias : Int)

/-- The sign bit `S` of a pattern (R130, R131). -/
def FloatFmt.signOf (f : FloatFmt) (p : Nat) : Bool := p.testBit (f.eb + f.fb)

/-- The exponent field `E` of a pattern (R130, R131). -/
def FloatFmt.expOf (f : FloatFmt) (p : Nat) : Nat := p / 2 ^ f.fb % 2 ^ f.eb

/-- The fraction field `F` of a pattern (R130, R131). -/
def FloatFmt.fracOf (f : FloatFmt) (p : Nat) : Nat := p % 2 ^ f.fb

/-- The pattern is an infinity or a NaN: `E = 255` or `E = 2047` (R130, R131, R174). -/
def FloatFmt.unsupported (f : FloatFmt) (p : Nat) : Bool := f.expOf p == 2 ^ f.eb - 1

/-- The pattern is `+0` or `-0`, so that `value == 0` (R130, R133). -/
def FloatFmt.isZero (f : FloatFmt) (p : Nat) : Bool := f.expOf p == 0 && f.fracOf p == 0

/-- FDECOMP32 and FDECOMP64 in the closed form of R132 and R140: the pair (exponent, n) of the magnitude of a finite
non-zero pattern. -/
def FloatFmt.decomp (f : FloatFmt) (p : Nat) : Int × Nat :=
  if f.expOf p = 0 then
    let top := Nat.log2 (f.fracOf p)
    ((top : Int) - (f.bias + f.fb - 1 : Nat), (f.fracOf p - 2 ^ top) * 2 ^ (f.fb - top))
  else
    ((f.expOf p : Int) - f.bias, f.fracOf p)

/-- A pattern from its sign and the number `E × 2^fb + F` below it (R136: the fields lie side by side). -/
def FloatFmt.pack (f : FloatFmt) (sign : Bool) (low : Nat) : Nat := sign.toNat * 2 ^ (f.eb + f.fb) + low

/-- `sig / 2^sh` rounded to nearest, ties to even (R136, R144, D17). -/
def roundShift (sig sh : Nat) : Nat :=
  let q := sig / 2 ^ sh
  let r := sig % 2 ^ sh
  let half := 2 ^ (sh - 1)
  if r > half ∨ (r = half ∧ q % 2 = 1) then q + 1 else q

/-- FRECOMP32 and FRECOMP64 (R136, R144). -/
def FloatFmt.recomp (f : FloatFmt) (sign : Bool) (e : Int) (n : Nat) : Nat :=
  if f.minExp ≤ e then
    f.pack sign ((e + f.bias).toNat * 2 ^ f.fb + n)
  else
    f.pack sign (roundShift (2 ^ f.fb + n) (f.minExp - e).toNat)

/-- Steps 4 and 5 of readFloat: zero when exponent and fraction are zero, whatever the sign (R137, D18), else FRECOMP. -/
def FloatFmt.valueOf (f : FloatFmt) (sign : Bool) (e : Int) (n : Nat) : Nat :=
  if e = 0 ∧ n = 0 then 0 else f.recomp sign e n

end Sys2Proof.Machine
end

