-- ==== Sys2Proof/Machine/Ops.lean ====
section
/-! DEFINITION. The shared operations: the bit steps WriteBit and ReadBit and the fields made of them
(spec/40_cursor_buffer.md R93, R94, spec/41_integer_packer.md R110 to R116), ending a command with its response
(spec/30_encoding.md R66), and taking a fault (spec/60_exceptions.md R178, R179). A fault has no return operation: "There is
no trap return and no nesting" (R182); the next command runs from the state the fault leaves. -/

namespace Sys2Proof.Machine

/-- How a part of a command ends: with a value, or with `raise F`, which stops the command there while "state written so
far stays written" (R12, R176). -/
inductive Run (α : Type) where
  | ok (a : α) (s : State)
  | raise (c : FaultCode) (s : State)
  deriving Repr

/-- One part of a command after another. -/
def Run.bind {α β : Type} (r : Run α) (k : α → State → Run β) : Run β :=
  match r with
  | .ok a s => k a s
  | .raise c s => .raise c s

/-- The result of a command that ends with status 0: `RW.value` and the payload-out bytes (R61). -/
structure Result where
  value : Val
  out : List Byte
  deriving DecidableEq, Repr

/-- The result of the commands that report nothing: `RW.value <- 0`, no payload-out (R61). -/
def Result.none : Result := { value := 0, out := [] }

/-- The byte index of the access, `cursor >> 3` (R45). -/
def State.byteIndex (s : State) : Nat := s.cursor / 8

/-- The bit number of the access, `cursor mod 8` (R45). -/
def State.bitIndex (s : State) : Nat := s.cursor % 8

/-- The bit at stream position `p`: bit `p mod 8` of byte `p >> 3` (R11, R42). -/
def State.bitAt (s : State) (p : Nat) : Bool := (s.buf.read (p / 8)).getLsbD (p % 8)

/-- `idx >= BUF_CAP`; never when the capacity is unbounded (R93). -/
def State.beyondCap (s : State) (idx : Nat) : Bool :=
  match s.bufCap with
  | none => false
  | some cap => decide (cap ≤ idx)

/-- `N > BUF_CAP`; never when the capacity is unbounded (R91). -/
def State.tooLong (s : State) (n : Nat) : Bool :=
  match s.bufCap with
  | none => false
  | some cap => decide (cap < n)

/-- `buf[len] <- 0x00; len <- len + 1` (R93). -/
def appendZero (s : State) : State := { s with buf := s.buf.write s.len 0, len := s.len + 1 }

/-- `k` zero bytes appended, one at a time. -/
def appendZeros : Nat → State → State
  | 0, s => s
  | k + 1, s => appendZeros k (appendZero s)

/-- "append one zero byte (repeated one at a time until it exists)", where byte `idx` is the one to exist (R93). At most
one byte is appended in a state the block can reach (R26; log entry 10). -/
def growTo (idx : Nat) (s : State) : State := appendZeros (idx + 1 - s.len) s

/-- Set or clear bit number `k` of a byte, the other seven as they were (R46, R93). -/
def setBit (x : Byte) (k : Nat) (b : Bool) : Byte :=
  if b then x ||| (1#8 <<< k) else x &&& ~~~(1#8 <<< k)

/-- `WriteBit(b)` (R93). -/
def writeBit (b : Bool) (s : State) : Run Unit :=
  if s.beyondCap s.byteIndex then
    .raise .bufferFull s
  else
    let g := growTo s.byteIndex s
    .ok () { g with
      buf := g.buf.write s.byteIndex (setBit (g.buf.read s.byteIndex) s.bitIndex b)
      cursor := s.cursor + 1 }

/-- `ReadBit()` (R94). -/
def readBit (s : State) : Run Bool :=
  if s.len ≤ s.byteIndex then
    .raise .outOfBounds s
  else
    .ok ((s.buf.read s.byteIndex).getLsbD s.bitIndex) { s with cursor := s.cursor + 1 }

/-- The `k` bit steps of a field from bit `i` of `v` on, in this order (R110). -/
def writeBitsFrom (v : Nat) : Nat → Nat → State → Run Unit
  | _, 0, s => .ok () s
  | i, k + 1, s => (writeBit (v.testBit i) s).bind fun _ t => writeBitsFrom v (i + 1) k t

/-- `WriteU(v, n)` (R110). -/
def writeU (v n : Nat) (s : State) : Run Unit := writeBitsFrom v 0 n s

/-- The `k` bit steps of a field from bit `i` on, with `u` read so far (R112). -/
def readBitsFrom (u : Nat) : Nat → Nat → State → Run Nat
  | _, 0, s => .ok u s
  | i, k + 1, s => (readBit s).bind fun b t => readBitsFrom (u + b.toNat * 2 ^ i) (i + 1) k t

/-- `ReadU(n)` (R112). -/
def readU (n : Nat) (s : State) : Run Nat := readBitsFrom 0 0 n s

/-- `WriteS(v, n)` (R114). -/
def writeS (v : Int) (n : Nat) (s : State) : Run Unit :=
  (writeBit (signBit v) s).bind fun _ t => writeU (magnitude v) (n - 1) t

/-- `ReadS(n)` (R116). -/
def readS (n : Nat) (s : State) : Run Int :=
  (readBit s).bind fun sign t => (readU (n - 1) t).bind fun m u => .ok (signedOf sign m) u

/-- The check `if n < lo or n > 64: raise IllegalWidth(n)` before any state change (R64, R173). -/
def checkWidth (lo : Nat) (bits : Width) (s : State) : Run Unit :=
  if widthLegal lo bits then .ok () s else .raise .illegalWidth s

/-- A count in `RW.value` (R61): itself where it fits the 64-bit field, else unspecified (log entry 8). -/
def countValue (n : Nat) : Val := if n < 2 ^ 64 then zext64 n else Config.overlongCount n

/-- All of the buffer, `buf[0], buf[1], … buf[len-1]` (R92). -/
def State.bytes (s : State) : List Byte := s.buf.bytesFrom 0 s.len

/-- The empty codec (R33, R90): what init, reset and the first construction leave. -/
def makeEmpty (s : State) : State := { s with buf := [], len := 0, cursor := 0, err := 0 }

/-- The codec made from an existing byte sequence (R33, R91). -/
def makeLoaded (bytes : List Byte) (s : State) : State :=
  { s with buf := Memory.ofBytes bytes, len := bytes.length, cursor := 0, err := 0 }

/-- The response of a command that ends with status 0 (R66, R67). -/
def respond (r : Result) (s : State) : State :=
  { s with responses := s.responses ++ [{ status := 0, errs := errsField s.err, value := r.value, out := r.out }] }

/-- TAKING A FAULT, the one shared operation: the fault's flag is set (R179), the response reports the code and the flags
including the new one (R178), its value is unspecified (a free value, log entry 6), and nothing else happens: no handler,
no saved state, no change of control (R181). `out` is what has been given on payload-out. -/
def takeFault (c : FaultCode) (out : List Byte) (s : State) : State :=
  { s with
    err := setFlag c s.err
    responses := s.responses ++ [{ status := c.status, errs := errsField (setFlag c s.err),
                                   value := Config.faultValue s.freeCount, out := out }]
    freeCount := s.freeCount + 1 }

/-- The end of a command without payload-out. -/
def finish (r : Run Result) : Host.Outcome State Fault Refusal :=
  match r with
  | .ok a s => .next (respond a s)
  | .raise c s => .next (takeFault c [] s)

/-- The end of readString: the bytes given before a fault are unspecified in number and content (R67, R178; log entry
7). -/
def finishPayload (r : Run Result) : Host.Outcome State Fault Refusal :=
  match r with
  | .ok a s => .next (respond a s)
  | .raise c s => .next (takeFault c (Config.faultPayload s.freeCount) s)

/-- A reset (R200, R201): the state of an empty codec, without a response, whatever a running command had done. -/
def applyReset (s : State) : Host.Outcome State Fault Refusal := .next (makeEmpty s)

/-- Nothing issued: the block waits for the host and its state stays (R216; log entry 4). -/
def idle (s : State) : Host.Outcome State Fault Refusal := .next s

/-- A pair that is no command: a reserved opcode answers IllegalCommand with no payload taken (R63, R175); a payload of
another length than the word asks for is refused at the model's boundary (R65; log entry 2). -/
def answerReject (r : DecodeReject) (s : State) : Host.Outcome State Fault Refusal :=
  match r with
  | .illegalCommand => .next (takeFault .illegalCommand [] s)
  | .payloadLength => .refused .payloadLength

end Sys2Proof.Machine
end

