-- ==== Sys2Proof/Machine/CursorBuffer.lean ====
section
/-! DEFINITION. The Cursor & Buffer commands: init, load, addBit, readBit, getBuf (spec/40_cursor_buffer.md R90 to R92, R95,
R96). -/

namespace Sys2Proof.Machine

/-- `init()` (R90). -/
def execInit (s : State) : Host.Outcome State Fault Refusal :=
  finish (.ok Result.none (makeEmpty s))

/-- `load(N, B)` (R91); `N` is the payload's length (R65). -/
def execLoad (payload : List Byte) (s : State) : Host.Outcome State Fault Refusal :=
  finish (if s.tooLong payload.length then .raise .bufferFull s else .ok Result.none (makeLoaded payload s))

/-- `addBit(value)` (R95). -/
def execAddBit (value : Bool) (s : State) : Host.Outcome State Fault Refusal :=
  finish ((writeBit value s).bind fun _ t => .ok Result.none t)

/-- `readBit()` (R96). -/
def execReadBit (s : State) : Host.Outcome State Fault Refusal :=
  finish ((readBit s).bind fun b t => .ok { value := zext64 b.toNat, out := [] } t)

/-- `getBuf()` (R92). -/
def execGetBuf (s : State) : Host.Outcome State Fault Refusal :=
  finish (.ok { value := countValue s.len, out := s.bytes } s)

end Sys2Proof.Machine
end

