-- ==== Sys2Proof/Machine/FloatPacker.lean ====
section
/-! DEFINITION. The Float Packer commands: addFloat, readFloat, addDouble, readDouble (spec/42_float_packer.md R133, R137,
R141, R145), over the two formats of R130 and R131. -/

namespace Sys2Proof.Machine

/-- The sign bit, the exponent field and the fraction field of a float, in this order (R73, R74). -/
def writeFloatField (f : FloatFmt) (sign : Bool) (e : Int) (n : Nat) (s : State) : Run Unit :=
  (writeBit sign s).bind fun _ t => (writeS e f.eb t).bind fun _ u => writeU n f.fb u

/-- The pseudocode of addFloat and addDouble (R133, R141). -/
def addFloating (f : FloatFmt) (p : Nat) (s : State) : Run Unit :=
  if f.unsupported p then .raise .unsupportedFloat s
  else if f.isZero p then writeFloatField f false 0 0 s
  else writeFloatField f (f.signOf p) (f.decomp p).1 (f.decomp p).2 s

/-- The pseudocode of readFloat and readDouble (R137, R145). -/
def readFloating (f : FloatFmt) (s : State) : Run Nat :=
  (readBit s).bind fun sign t => (readS f.eb t).bind fun e u => (readU f.fb u).bind fun n v =>
    .ok (f.valueOf sign e n) v

/-- `addFloat(value)` (R133). -/
def execAddFloat (pattern : BitVec 32) (s : State) : Host.Outcome State Fault Refusal :=
  finish ((addFloating float32 pattern.toNat s).bind fun _ t => .ok Result.none t)

/-- `readFloat()` (R137). -/
def execReadFloat (s : State) : Host.Outcome State Fault Refusal :=
  finish ((readFloating float32 s).bind fun p t => .ok { value := zext64 p, out := [] } t)

/-- `addDouble(value)` (R141). -/
def execAddDouble (pattern : BitVec 64) (s : State) : Host.Outcome State Fault Refusal :=
  finish ((addFloating float64 pattern.toNat s).bind fun _ t => .ok Result.none t)

/-- `readDouble()` (R145). -/
def execReadDouble (s : State) : Host.Outcome State Fault Refusal :=
  finish ((readFloating float64 s).bind fun p t => .ok { value := zext64 p, out := [] } t)

end Sys2Proof.Machine
end

