-- ==== Sys2Proof/Machine/IntegerPacker.lean ====
section
/-! DEFINITION. The Integer Packer commands: addUint, readUint, addInt, readInt (spec/41_integer_packer.md R111, R113, R115,
R117). -/

namespace Sys2Proof.Machine

/-- `addUint(value, bits)` (R111). -/
def execAddUint (value : Val) (bits : Width) (s : State) : Host.Outcome State Fault Refusal :=
  finish ((checkWidth 1 bits s).bind fun _ t =>
    (writeU value.toNat bits.toNat t).bind fun _ u => .ok Result.none u)

/-- `readUint(bits)` (R113). -/
def execReadUint (bits : Width) (s : State) : Host.Outcome State Fault Refusal :=
  finish ((checkWidth 1 bits s).bind fun _ t =>
    (readU bits.toNat t).bind fun v u => .ok { value := zext64 v, out := [] } u)

/-- `addInt(value, bits)` (R115). -/
def execAddInt (value : Val) (bits : Width) (s : State) : Host.Outcome State Fault Refusal :=
  finish ((checkWidth 2 bits s).bind fun _ t =>
    (writeS (signed64 value) bits.toNat t).bind fun _ u => .ok Result.none u)

/-- `readInt(bits)` (R117). -/
def execReadInt (bits : Width) (s : State) : Host.Outcome State Fault Refusal :=
  finish ((checkWidth 2 bits s).bind fun _ t =>
    (readS bits.toNat t).bind fun v u => .ok { value := sext64 v, out := [] } u)

end Sys2Proof.Machine
end

