-- ==== Sys2Proof/Machine/StringPacker.lean ====
section
/-! DEFINITION. The String Packer commands: addString, readString (spec/43_string_packer.md R160, R161). -/

namespace Sys2Proof.Machine

/-- The characters of a string, each a field of 8 bits, in order (R75, R160). -/
def writeChars : List Byte → State → Run Unit
  | [], s => .ok () s
  | c :: rest, s => (writeU c.toNat 8 s).bind fun _ t => writeChars rest t

/-- The loop of readString with `acc` given on payload-out so far (R161). `fuel` bounds its turns; `len + 1` turns are
always enough ("after at most `len` turns", R162 item 1; log entry 15), so the last case is never met from there. -/
def readChars : Nat → List Byte → State → Run (List Byte)
  | 0, acc, s => .ok acc s
  | fuel + 1, acc, s =>
    (readU 8 s).bind fun c t =>
      if c = 0 then .ok acc t
      else if t.len ≤ t.byteIndex then .ok (acc ++ [BitVec.ofNat 8 c]) t
      else readChars fuel (acc ++ [BitVec.ofNat 8 c]) t

/-- `addString(N, C)` (R160). -/
def execAddString (chars : List Byte) (s : State) : Host.Outcome State Fault Refusal :=
  finish ((writeChars chars s).bind fun _ t => (writeU 0 8 t).bind fun _ u => .ok Result.none u)

/-- `readString()` (R161). -/
def execReadString (s : State) : Host.Outcome State Fault Refusal :=
  finishPayload ((readChars (s.len + 1) [] s).bind fun chars t =>
    .ok { value := countValue chars.length, out := chars } t)

end Sys2Proof.Machine
end

