-- ==== Sys2Proof/Machine/Dispatch.lean ====
section
/-! DEFINITION. One arm per command (spec/30_encoding.md R61). -/

namespace Sys2Proof.Machine

/-- The effect of one command, from its first bit step to its response (R9, R69). -/
def exec (i : Instr) (s : State) : Host.Outcome State Fault Refusal :=
  match i with
  | .init => Sys2Proof.Machine.execInit s
  | .load payload => Sys2Proof.Machine.execLoad payload s
  | .addBit value => Sys2Proof.Machine.execAddBit value s
  | .readBit => Sys2Proof.Machine.execReadBit s
  | .addUint value bits => Sys2Proof.Machine.execAddUint value bits s
  | .readUint bits => Sys2Proof.Machine.execReadUint bits s
  | .addInt value bits => Sys2Proof.Machine.execAddInt value bits s
  | .readInt bits => Sys2Proof.Machine.execReadInt bits s
  | .addFloat pattern => Sys2Proof.Machine.execAddFloat pattern s
  | .readFloat => Sys2Proof.Machine.execReadFloat s
  | .addDouble pattern => Sys2Proof.Machine.execAddDouble pattern s
  | .readDouble => Sys2Proof.Machine.execReadDouble s
  | .addString chars => Sys2Proof.Machine.execAddString chars s
  | .readString => Sys2Proof.Machine.execReadString s
  | .getBuf => Sys2Proof.Machine.execGetBuf s

end Sys2Proof.Machine
end

