-- ==== Sys2Proof/Machine/Step.lean ====
section
/-! DEFINITION. One step of the machine: the block takes the next thing the host does (spec/30_encoding.md R69,
spec/70_reset_and_hazards.md R200, R201, R212) and carries it to its end. -/

namespace Sys2Proof.Machine

/-- One step: wait, reset, or take one command, which is no longer pending while it runs (R69). -/
def step (s : State) : Host.Outcome State Fault Refusal :=
  match s.pending with
  | [] => idle s
  | .reset _ :: rest => applyReset { s with pending := rest }
  | .command c :: rest =>
    match decode c with
    | .ok i => exec i { s with pending := rest }
    | .error r => answerReject r { s with pending := rest }

/-- The state in which the command of the table word `w` is the next thing the host has issued, with the payload of
zeros the word asks for, ahead of whatever was pending (log entry 3). -/
def State.withFetchWord (s : State) (nbits w : Nat) : State :=
  { s with pending := .command (tableCommand nbits w) :: s.pending }

end Sys2Proof.Machine
end

