-- ==== Sys2Proof/Safety.lean ====
section
/-! DEFINITION. The vocabulary claims are stated in: the invariant of the state (spec/10_state.md R26), what a bit field in
the buffer stands for (spec/30_encoding.md R71, R72), what writing a field and reporting a fault change and leave alone, and
the real number a float pattern stands for (spec/42_float_packer.md R130, R131). -/

namespace Sys2Proof.Machine

/-- The invariant: the buffer's cells are in canonical form and none lies at `len` or above (R22), the cursor is inside
(R26), and `len` is within the capacity (R23). -/
structure State.Inv (s : State) : Prop where
  canonical : s.buf.wf = true
  within : s.buf.below s.len = true
  cursorInside : s.cursor ≤ 8 * s.len
  lenInCap : ∀ cap, s.bufCap = some cap → s.len ≤ cap

/-- There is room for `n` more bits at the cursor (R50, R213). -/
def State.Room (s : State) (n : Nat) : Prop := ∀ cap, s.bufCap = some cap → s.cursor + n ≤ 8 * cap

/-- At least `n` bits are readable at the cursor (R51, R113). -/
def State.Readable (s : State) (n : Nat) : Prop := s.cursor + n ≤ 8 * s.len

/-- The value of the unsigned field of width `n` at position `p`: the sum of `bit_i × 2^i` (R71). -/
def State.fieldAt (s : State) (p n : Nat) : Nat :=
  ∑ i ∈ Finset.range n, (s.bitAt (p + i)).toNat * 2 ^ i

/-- The value of the signed field of width `n` at position `p`: `m` when its sign bit is 0, `-m - 1` when it is 1 (R72). -/
def State.signedFieldAt (s : State) (p n : Nat) : Int :=
  if s.bitAt p then -(s.fieldAt (p + 1) (n - 1) : Int) - 1 else (s.fieldAt (p + 1) (n - 1) : Int)

/-- Character `k` of the string at the cursor: the field of 8 bits at position `cursor + 8k` (R75). -/
def State.charAt (s : State) (k : Nat) : Nat := s.fieldAt (s.cursor + 8 * k) 8

/-- The first `k` characters of the string at the cursor (R75). -/
def State.charsAt (s : State) (k : Nat) : List Byte := (List.range k).map fun j => BitVec.ofNat 8 (s.charAt j)

/-- The bits of the signed field of a value: its sign, then `v` or `-v - 1` from the least significant bit (R72). -/
def signedFieldBit (v : Int) (i : Nat) : Bool :=
  if i = 0 then decide (v < 0)
  else if v < 0 then (-v - 1).toNat.testBit (i - 1) else v.toNat.testBit (i - 1)

/-- The bits of a float field: the sign, the signed exponent of `eb` bits, the fraction from the least significant bit
(R73, R74). -/
def floatFieldBit (eb : Nat) (sign : Bool) (e : Int) (n : Nat) (i : Nat) : Bool :=
  if i = 0 then sign else if i ≤ eb then signedFieldBit e (i - 1) else n.testBit (i - 1 - eb)

/-- The bits of a string field: the characters, eight bits each, then eight zero bits (R75). -/
def stringFieldBit (chars : List Byte) (i : Nat) : Bool :=
  (chars.getD (i / 8) 0#8).getLsbD (i % 8)

/-- From `s` to `t` the `n` bits `f 0 … f (n-1)` were written at the cursor: the cursor advanced by `n`, `len` grew just as
far as the bits reach, every other bit and every byte the bits do not touch reads as before, and no other part of the state
changed. -/
structure Wrote (s t : State) (n : Nat) (f : Nat → Bool) : Prop where
  frame : t = { s with buf := t.buf, len := t.len, cursor := t.cursor }
  cursor : t.cursor = s.cursor + n
  len : t.len = max s.len ((s.cursor + n + 7) / 8)
  bits : ∀ p, t.bitAt p = if s.cursor ≤ p ∧ p < s.cursor + n then f (p - s.cursor) else s.bitAt p
  bytes : ∀ a, a < s.byteIndex ∨ s.cursor + n ≤ 8 * a → t.buf.read a = s.buf.read a

/-- From `u` to `t` the fault `c` was taken: its sticky flag is set and the others stay (R179), the response reports the
code and the flags with the new one and some value (R66, R178), with `out` on payload-out, and nothing else of the spec's
state changed. -/
structure Faulted (u t : State) (c : FaultCode) (out : List Byte) : Prop where
  frame : t = { u with err := t.err, responses := t.responses, freeCount := t.freeCount }
  flags : ∀ k, k < 5 → t.err.getLsbD k = (u.err.getLsbD k || decide (k + 1 = c.number))
  report : ∃ value, t.responses = u.responses ++
    [{ status := BitVec.ofNat 8 c.number, errs := t.err.setWidth 8, value := value, out := out }]

/-- The state after a command that changed the codec to `u` and ended with status 0 (R66). -/
def answered (u : State) (value : Val) (out : List Byte) : State :=
  { u with responses := u.responses ++ [{ status := 0, errs := u.err.setWidth 8, value := value, out := out }] }

/-- The command writes the field of `n` bits `f` at the cursor and ends with status 0 and value 0 when there is room;
when a finite capacity leaves less room it writes the bits that fit, the cursor and `len` end at the capacity, and it
ends with BufferFull (R176). -/
def WritesField (i : Instr) (s : State) (n : Nat) (f : Nat → Bool) : Prop :=
  (s.Room n → ∃ u, Wrote s u n f ∧ exec i s = .next (answered u 0 [])) ∧
  (∀ cap, s.bufCap = some cap → 8 * cap < s.cursor + n →
    ∃ u t, Wrote s u (8 * cap - s.cursor) f ∧ u.cursor = 8 * cap ∧ u.len = cap ∧
      exec i s = .next t ∧ Faulted u t .bufferFull [])

/-- The command reads a field of `n` bits and ends with status 0 and the value `v` when the bits are readable; else it
consumes the readable bits, the cursor ends at `8 × len`, and it ends with OutOfBounds (R176). Nothing else changes. -/
def ReadsField (i : Instr) (s : State) (n : Nat) (v : Val) : Prop :=
  (s.Readable n → exec i s = .next (answered { s with cursor := s.cursor + n } v [])) ∧
  (¬ s.Readable n → ∃ t, exec i s = .next t ∧ Faulted { s with cursor := 8 * s.len } t .outOfBounds [])

/-- The command ends with the fault `c` before it changes anything of the codec but the flag (R176). -/
def FaultsAtOnce (i : Instr) (s : State) (c : FaultCode) : Prop :=
  ∃ t, exec i s = .next t ∧ Faulted s t c []

/-- The response last given (R66). -/
def State.lastResponse (s : State) : Option Response := s.responses.getLast?

/-- A response R66 allows: a status from 0 to 5 and zeros in `errs[7:5]`. -/
def Response.Legal (r : Response) : Prop := r.status.toNat ≤ 5 ∧ r.errs.toNat < 32

/-- A sequence of commands, each executed to its end before the next (R52, R69). -/
def execs : List Instr → State → Host.Outcome State Fault Refusal
  | [], s => .next s
  | i :: rest, s =>
    match exec i s with
    | .next t => execs rest t
    | .fault r => .fault r
    | .refused r => .refused r

/-- "Transfer" of what the commands `writes` leave on an empty instance, then the read command (R205): init, the writes,
getBuf, load of exactly the bytes getBuf gave, the read; `r` is the response of the read. -/
def ReadsBack (s : State) (writes : List Instr) (read : Instr) (r : Response) : Prop :=
  ∃ t u g, execs (.init :: writes ++ [.getBuf]) s = .next t ∧ t.lastResponse = some g ∧ g.status = 0 ∧
    execs [.load g.out, read] t = .next u ∧ u.lastResponse = some r

/-- The commands that read a field of the stream. -/
def isRead : Instr → Bool
  | .readBit | .readUint _ | .readInt _ | .readFloat | .readDouble | .readString => true
  | _ => false

/-- The commands that make a new codec: init and load (R32). -/
def isConstruction : Instr → Bool
  | .init | .load _ => true
  | _ => false

/-- The pre-execution check of a command that moves bits passes (R177): a legal width, a supported float. -/
def checksPass : Instr → Bool
  | .addUint _ bits | .readUint bits => widthLegal 1 bits
  | .addInt _ bits | .readInt bits => widthLegal 2 bits
  | .addFloat pattern => !float32.unsupported pattern.toNat
  | .addDouble pattern => !float64.unsupported pattern.toNat
  | _ => true

/-- The commands that write a field into the stream. -/
def isWrite : Instr → Bool
  | .addBit _ | .addUint _ _ | .addInt _ _ | .addFloat _ | .addDouble _ | .addString _ => true
  | _ => false

/-- The real number a finite pattern stands for (the tables of R130 and R131). -/
def FloatFmt.value (f : FloatFmt) (p : Nat) : ℚ :=
  (if f.signOf p then -1 else 1) *
    (if f.expOf p = 0 then (f.fracOf p : ℚ) * (2 : ℚ) ^ (1 - (f.bias : ℤ) - (f.fb : ℤ))
     else ((2 : ℚ) ^ f.fb + (f.fracOf p : ℚ)) * (2 : ℚ) ^ ((f.expOf p : ℤ) - (f.bias : ℤ) - (f.fb : ℤ)))

/-- The two formats of R10. -/
def isFloatFmt (f : FloatFmt) : Prop := f = float32 ∨ f = float64

end Sys2Proof.Machine
end

