-- ==== Sys2Proof/Certificates/Slice0/Obligations.lean ====
section
/-! DEFINITION. What is claimed of the model, from the numbered rules of spec/. Nothing is proved here. Rules marked
"[decision: D<n>]" are the spec's own; what rests on a log entry of the model says so. A free value (log entries 6, 7, 8) is
never given a value: a statement that meets one holds for every value of it. -/

open Sys2Proof Sys2Proof.Machine

/-! ### Encoding -/

/-- Every command whose payload has a length word is what its own word and payload decode to, with every operand at every
value (from R60 to R62, R65). That a width outside the contract decodes too, where R84 counts such a word as raising
IllegalWidth, is the model's choice (log entry 12). -/
def Obligations.DecodeOfEncodeIsTheCommand : Prop :=
  ∀ i : Instr, (encodePayload i).length < 2 ^ 64 → decode (encode i) = .ok i

/-- A pair that decodes to a command has that command's opcode and payload, and differs from the command's own pair in
ignored fields only (from R62, R65). That a pair with a width outside the contract decodes is the model's choice (log entry
12). -/
def Obligations.DecodedPairAgreesWithEncodedPair : Prop :=
  ∀ (c : HostCommand) (i : Instr), decode c = .ok i →
    fieldOp c.word = opcode i ∧ c.payload = encodePayload i ∧ decode (encode i) = .ok i

/-- "A field a command does not use … is ignored by the block: any value there gives the same behaviour" (from R62): each
command's word decodes to it whatever stands in the fields it does not use, a step depends on the pair only through what
it decodes to, and the encoder writes zeros in those fields. That the words of opcodes 0x04 to 0x07 decode with a width
outside the contract too is the model's choice (log entry 12), and so is that two steps agree in a value or payload the spec
leaves unspecified (R178; log entries 6, 7, 8). -/
def Obligations.UnusedFieldsAreIgnored : Prop :=
  (∀ (w : Width) (val : Val),
    decode ⟨packWord 0x00 w val, []⟩ = .ok .init ∧
    decode ⟨packWord 0x02 w val, []⟩ = .ok (.addBit (val.getLsbD 0)) ∧
    decode ⟨packWord 0x03 w val, []⟩ = .ok .readBit ∧
    decode ⟨packWord 0x04 w val, []⟩ = .ok (.addUint val w) ∧
    decode ⟨packWord 0x05 w val, []⟩ = .ok (.readUint w) ∧
    decode ⟨packWord 0x06 w val, []⟩ = .ok (.addInt val w) ∧
    decode ⟨packWord 0x07 w val, []⟩ = .ok (.readInt w) ∧
    decode ⟨packWord 0x08 w val, []⟩ = .ok (.addFloat (val.extractLsb' 0 32)) ∧
    decode ⟨packWord 0x09 w val, []⟩ = .ok .readFloat ∧
    decode ⟨packWord 0x0A w val, []⟩ = .ok (.addDouble val) ∧
    decode ⟨packWord 0x0B w val, []⟩ = .ok .readDouble ∧
    decode ⟨packWord 0x0D w val, []⟩ = .ok .readString ∧
    decode ⟨packWord 0x0E w val, []⟩ = .ok .getBuf) ∧
  (∀ (w : Width) (val : Val) (payload : List Byte), payload.length = val.toNat →
    decode ⟨packWord 0x01 w val, payload⟩ = .ok (.load payload) ∧
    decode ⟨packWord 0x0C w val, payload⟩ = .ok (.addString payload)) ∧
  (∀ (s : State) (c c' : HostCommand) (rest : List HostInput), decode c = decode c' →
    step { s with pending := .command c :: rest } = step { s with pending := .command c' :: rest }) ∧
  (∀ i : Instr,
    ((∀ v b, i ≠ .addUint v b) → (∀ b, i ≠ .readUint b) → (∀ v b, i ≠ .addInt v b) → (∀ b, i ≠ .readInt b) →
      fieldW (encode i).word = 0) ∧
    (isRead i = true ∨ i = .init ∨ i = .getBuf → fieldVal (encode i).word = 0) ∧
    (∀ b, i = .addBit b → ∀ k, 1 ≤ k → (fieldVal (encode i).word).getLsbD k = false) ∧
    (∀ p, i = .addFloat p → ∀ k, 32 ≤ k → (fieldVal (encode i).word).getLsbD k = false))

/-- Every pair with the payload its word asks for is a well-formed command, or its step answers IllegalCommand, or
IllegalWidth (R84, which the spec derives). -/
def Obligations.EveryWordIsACommandOrAnswersAFault : Prop :=
  ∀ (s : State) (c : HostCommand) (rest : List HostInput), s.pending = .command c :: rest →
    c.payload.length = payloadCount c.word →
    (∃ i, decode c = .ok i ∧ WellFormed i = true) ∨
    (∃ t, step s = .next t ∧ Faulted { s with pending := rest } t .illegalCommand []) ∨
    (∃ t, step s = .next t ∧ Faulted { s with pending := rest } t .illegalWidth [])

/-- Words written out from the opcode map (R60, R61) decode to the commands they stand for: the words of program P1 and of
V-X11 and V-X12 of spec/95_test_vectors.md. -/
def Obligations.WordsOfTheVectorsDecode : Prop :=
  decode ⟨0x04_3C_000000000009FBF1#80, []⟩ = .ok (.addUint 654321 60) ∧
  decode ⟨0x06_1E_FFFFFFFFFFFFFB2E#80, []⟩ = .ok (.addInt (BitVec.ofInt 64 (-1234)) 30) ∧
  decode ⟨0x08_00_FFFFFFFF40000000#80, []⟩ = .ok (.addFloat 0x40000000) ∧
  decode ⟨0x02_07_FFFFFFFFFFFFFFFF#80, []⟩ = .ok (.addBit true) ∧
  decode ⟨0x0C_00_0000000000000003#80, [0x41, 0x00, 0x42]⟩ = .ok (.addString [0x41, 0x00, 0x42]) ∧
  decode ⟨0xFF_40_FFFFFFFFFFFFFFFF#80, []⟩ = .error .illegalCommand

/-- The response word has the fields of R66 at the bits R66 gives them. -/
def Obligations.ResponseWordHasItsFields : Prop :=
  ∀ r : Response, r.word.extractLsb' 72 8 = r.status ∧ r.word.extractLsb' 64 8 = r.errs ∧
    r.word.extractLsb' 0 64 = r.value

/-! ### One step of the machine -/

/-- When the next pending pair decodes to a command, the step is that command executed in the state in which the pair is
no longer pending (R69). -/
def Obligations.StepRunsTheDecodedCommand : Prop :=
  ∀ (s : State) (c : HostCommand) (rest : List HostInput) (i : Instr), s.pending = .command c :: rest →
    decode c = .ok i → step s = exec i { s with pending := rest }

/-- A table word placed as the next command is run by the very next step, as what the decoder reads from it (the model's
choice of log entry 3). -/
def Obligations.PlacedTableWordRunsNext : Prop :=
  ∀ (s : State) (nbits w : Nat) (i : Instr), decodeTableWord nbits w = some i →
    step (s.withFetchWord nbits w) = exec i s

/-- "A command word with `op` from 0x0F to 0xFF raises IllegalCommand and changes no codec state. It has no payload" (R63):
with no payload it is answered by that fault, nothing of `buf`, `len` or `cursor` changes, and no input but the word is
taken. -/
def Obligations.ReservedOpcodesAnswerIllegalCommand : Prop :=
  ∀ (s : State) (w : CmdWord) (rest : List HostInput), 0x0F ≤ (fieldOp w).toNat →
    s.pending = .command ⟨w, []⟩ :: rest →
    ∃ t, step s = .next t ∧ Faulted { s with pending := rest } t .illegalCommand []

/-- "A pair whose list length differs from `N` is not a command and a model refuses it at its boundary" (R65; log entry
2), and a pair whose length agrees is never refused. -/
def Obligations.OnlyAPayloadOfWrongLengthIsRefused : Prop :=
  ∀ (s : State) (c : HostCommand) (rest : List HostInput), s.pending = .command c :: rest →
    (c.payload.length ≠ payloadCount c.word → step s = .refused .payloadLength) ∧
    (c.payload.length = payloadCount c.word → ∃ t, step s = .next t)

/-- Reset leaves the state of an empty codec, also while a command is running and without a response, and has the effect of
init on the codec (from R200, R201). That a reset during a command is one step in the command's place, and that the inputs
after it, the earlier responses and the model's own counter stay, is the model's choice (log entry 11). -/
def Obligations.ResetIsTheEmptyCodec : Prop :=
  (State.reset.buf = [] ∧ State.reset.len = 0 ∧ State.reset.cursor = 0 ∧ State.reset.err = 0) ∧
  (∀ (s : State) (during : Option HostCommand) (rest : List HostInput), s.pending = .reset during :: rest →
    step s = .next { s with pending := rest, buf := [], len := 0, cursor := 0, err := 0 }) ∧
  (∀ s : State, exec .init s = .next (answered { s with buf := [], len := 0, cursor := 0, err := 0 } 0 []))

/-- With nothing issued the block waits and its state stays (the model's choice of log entry 4). -/
def Obligations.WithNothingIssuedTheBlockWaits : Prop :=
  ∀ s : State, s.pending = [] → step s = .next s

/-! ### Invariants and whole-machine rules -/

/-- The reset state meets the invariant. -/
def Obligations.ResetMeetsTheInvariant : Prop := State.reset.Inv

/-- Every step keeps the invariant: the buffer's cells stay canonical and below `len` (R22), `cursor <= 8 x len` (R26, which
the spec derives), `len <= BUF_CAP` (R23). -/
def Obligations.EveryStepKeepsTheInvariant : Prop :=
  ∀ s t : State, s.Inv → step s = .next t → t.Inv

/-- Every command, in every state, ends with a next state and exactly one response more, whose status and flags are as R66
says; it leaves the command channel and the capacity alone (R49, R53, R69, R215). -/
def Obligations.EveryCommandAnswersOnce : Prop :=
  ∀ (i : Instr) (s : State), ∃ t r, exec i s = .next t ∧ t.responses = s.responses ++ [r] ∧ r.Legal ∧
    r.errs = t.err.setWidth 8 ∧ t.pending = s.pending ∧ t.bufCap = s.bufCap

/-- Responses stay legal along every step, a reserved opcode's among them (R66: status 6 to 255 is never produced and
`errs[7:5]` is 0). -/
def Obligations.ResponsesStayLegal : Prop :=
  ∀ s t : State, (∀ r ∈ s.responses, r.Legal) → step s = .next t → ∀ r ∈ t.responses, r.Legal

/-- Between two constructions no command lowers `cursor` or `len` (R27, R28). -/
def Obligations.CursorAndLengthNeverDecrease : Prop :=
  ∀ (i : Instr) (s t : State), isConstruction i = false → exec i s = .next t →
    s.cursor ≤ t.cursor ∧ s.len ≤ t.len

/-- Between two constructions the bits of the buffer change at the positions the cursor passes only, and only by a write;
`len` grows no further than the byte of the last bit written (R28, R47, R50). -/
def Obligations.BitsChangeOnlyWhereTheCursorPasses : Prop :=
  ∀ (i : Instr) (s t : State), s.Inv → isConstruction i = false → exec i s = .next t →
    (∀ p, p < s.cursor ∨ t.cursor ≤ p → t.bitAt p = s.bitAt p) ∧
    (isWrite i = false → t.buf = s.buf ∧ t.len = s.len) ∧
    (t.len = s.len ∨ t.len = (t.cursor + 7) / 8)

/-- In a buffer written from empty every bit above the last written position is zero (R46, which the spec derives): if all
bits from the cursor on are zero, they are after every command but a load. A position at or above `8 × len` reads 0 by the
model's choice (log entry 9). -/
def Obligations.PadBitsStayZero : Prop :=
  ∀ (i : Instr) (s t : State), s.Inv → (∀ payload, i ≠ .load payload) → (∀ p, s.cursor ≤ p → s.bitAt p = false) →
    exec i s = .next t → ∀ p, t.cursor ≤ p → t.bitAt p = false

/-- Writing from an empty instance keeps `len = ceil(cursor / 8)` (R77, which the spec derives): each write command keeps it. -/
def Obligations.WritingKeepsTheLengthTight : Prop :=
  ∀ (i : Instr) (s t : State), s.Inv → isWrite i = true → s.len = (s.cursor + 7) / 8 → exec i s = .next t →
    t.len = (t.cursor + 7) / 8

/-- "Reads have no side effect on `buf` or `len`… A read's only state change is the cursor" (R48), beside the response and,
on a fault, the flag; a read that succeeds leaves the flags and advances the cursor; the same position always reads the
same bit. -/
def Obligations.ReadsChangeOnlyTheCursor : Prop :=
  ∀ (i : Instr) (s t : State), isRead i = true → exec i s = .next t →
    t = { s with cursor := t.cursor, err := t.err, responses := t.responses, freeCount := t.freeCount } ∧
    (∀ r, t.lastResponse = some r → r.status = 0 → t.err = s.err ∧ s.cursor < t.cursor) ∧
    (∀ p, t.bitAt p = s.bitAt p)

/-- The flags (R25, R179): a command that ends with status `c` in 1 to 5 sets `err[c-1]` and no other; a command that ends
with status 0 leaves them as they were, but init and load clear all five. -/
def Obligations.FlagsAreSticky : Prop :=
  ∀ (i : Instr) (s t : State) (r : Response), exec i s = .next t → t.lastResponse = some r →
    (r.status ≠ 0 → ∀ k, k < 5 → t.err.getLsbD k = (s.err.getLsbD k || decide (k + 1 = r.status.toNat))) ∧
    (r.status = 0 → t.err = if isConstruction i then 0 else s.err)

/-- "A set flag changes the behaviour of no command" (from R25, R179): the same command from a state that differs in the
flags only ends with the same codec, the same status, value and payload. That value and payload agree where the spec leaves
them unspecified (a faulting response, R178; a count of 2^64 or more) is the model's choice: both runs draw with the same
counter or count (log entries 6, 7, 8). -/
def Obligations.FlagsBlockNothing : Prop :=
  ∀ (i : Instr) (s t : State) (e : BitVec 5), exec i s = .next t →
    ∃ t', exec i { s with err := e } = .next t' ∧
      t' = { t with err := t'.err, responses := t'.responses } ∧
      ∃ r r', t.responses = s.responses ++ [r] ∧ t'.responses = s.responses ++ [r'] ∧
        r' = { r with errs := r'.errs }

/-- With an unbounded capacity BufferFull never occurs (R50, R172). -/
def Obligations.UnboundedCapacityNeverFills : Prop :=
  ∀ (i : Instr) (s t : State) (r : Response), s.bufCap = none → exec i s = .next t → t.lastResponse = some r →
    r.status ≠ 2

/-- After OutOfBounds every later read faults too, and after BufferFull every later write (R176, R211): at the end of the
buffer a read whose check passes answers OutOfBounds, at the end of the capacity a write whose check passes answers
BufferFull, and neither changes the codec. -/
def Obligations.TheEndStaysTheEnd : Prop :=
  (∀ (i : Instr) (s : State), s.cursor = 8 * s.len → isRead i = true → checksPass i = true →
    ∃ t out, exec i s = .next t ∧ Faulted s t .outOfBounds out) ∧
  (∀ (i : Instr) (s : State) (cap : Nat), s.bufCap = some cap → s.cursor = 8 * cap → isWrite i = true →
    checksPass i = true → ∃ t, exec i s = .next t ∧ Faulted s t .bufferFull [])

/-- Sequential memory (R52): a read of position `p` returns the bit the last write put there, else what was there. After
addBit, readBit at any readable position `p` (the cursor set there) gives the written bit at the written position and the
old bit elsewhere. -/
def Obligations.ReadReturnsTheLastWrite : Prop :=
  ∀ (s t : State) (b : Bool) (p : Nat), s.Inv → s.Room 1 → exec (.addBit b) s = .next t → p < 8 * t.len →
    exec .readBit { t with cursor := p } = .next (answered { t with cursor := p + 1 }
      (if p = s.cursor then BitVec.ofNat 64 b.toNat else BitVec.ofNat 64 (s.bitAt p).toNat) [])

/-- A byte-aligned field of whole bytes is an ordinary little-endian byte sequence (R43, which the spec derives). -/
def Obligations.AlignedFieldsAreLittleEndianBytes : Prop :=
  ∀ (s : State) (a k : Nat), s.fieldAt (8 * a) (8 * k) = ∑ i ∈ Finset.range k, (s.buf.read (a + i)).toNat * 256 ^ i

/-- Reading a field as two fields of widths `a` and `b` gives its low `a` bits and then its high `b` bits (R43, which the
spec derives). -/
def Obligations.MixedWidthReadsSplitTheField : Prop :=
  ∀ (s : State) (a b c : Width), 1 ≤ a.toNat → 1 ≤ b.toNat → c.toNat = a.toNat + b.toNat → c.toNat ≤ 64 →
    s.Readable c.toNat →
    ∃ t u v lo hi whole, exec (.readUint a) s = .next t ∧ exec (.readUint b) t = .next u ∧
      exec (.readUint c) s = .next v ∧ t.lastResponse = some lo ∧ u.lastResponse = some hi ∧
      v.lastResponse = some whole ∧ lo.status = 0 ∧ hi.status = 0 ∧ whole.status = 0 ∧
      whole.value.toNat = lo.value.toNat + 2 ^ a.toNat * hi.value.toNat ∧ u.cursor = v.cursor

/-! ### Cursor & Buffer -/

/-- init (from R90): the empty codec, all flags cleared, status 0 and value 0, from every state; "the same effect as reset"
on the codec. That a reset while a command runs is one step in the command's place is the model's choice (log entry 11), and
so is that an index at or above `len` reads 0 (log entry 9; R33 leaves it unspecified). -/
def Obligations.InitMakesAnEmptyCodec : Prop :=
  ∀ s : State, ∃ t, exec .init s = .next t ∧ t.len = 0 ∧ t.cursor = 0 ∧ t.err = 0 ∧
    (∀ a, t.buf.read a = 0) ∧
    t = { s with buf := t.buf, len := t.len, cursor := t.cursor, err := t.err, responses := t.responses } ∧
    t.responses = s.responses ++ [{ status := 0, errs := 0, value := 0, out := [] }] ∧
    ∀ (during : Option HostCommand) (rest : List HostInput), ∃ u,
      step { s with pending := .reset during :: rest } = .next u ∧
      u.buf = t.buf ∧ u.len = t.len ∧ u.cursor = t.cursor ∧ u.err = t.err

/-- load (from R91): with `N ≤ BUF_CAP` the codec holds the payload with the cursor at 0 and no flag set; with `N > BUF_CAP`
it answers BufferFull and only `err[1]` changes. That an index at or above `N` reads 0 is the model's choice (log entry 9;
R33 leaves it unspecified). -/
def Obligations.LoadReplacesTheCodec : Prop :=
  ∀ (s : State) (payload : List Byte),
    ((∀ cap, s.bufCap = some cap → payload.length ≤ cap) →
      ∃ t, exec (.load payload) s = .next t ∧ t.len = payload.length ∧ t.cursor = 0 ∧ t.err = 0 ∧
        t.buf.wf = true ∧ (∀ a, t.buf.read a = payload.getD a 0) ∧
        t = { s with buf := t.buf, len := t.len, cursor := t.cursor, err := t.err, responses := t.responses } ∧
        t.responses = s.responses ++ [{ status := 0, errs := 0, value := 0, out := [] }]) ∧
    (∀ cap, s.bufCap = some cap → cap < payload.length → FaultsAtOnce (.load payload) s .bufferFull)

/-- getBuf (R92): the payload is `buf[0], buf[1], … buf[len-1]`, the value is `len`, and no state changes. A `len` of 2^64 or
more has no stated value (log entry 8). -/
def Obligations.GetBufGivesTheBytes : Prop :=
  ∀ s : State, ∃ value out, exec .getBuf s = .next (answered s value out) ∧ out.length = s.len ∧
    (∀ i, i < s.len → out.getD i 0 = s.buf.read i) ∧ (s.len < 2 ^ 64 → value = BitVec.ofNat 64 s.len)

/-- addBit (R95): one bit written at the cursor, or BufferFull with the state unchanged when `cursor >> 3 >= BUF_CAP`. -/
def Obligations.AddBitWritesOneBit : Prop :=
  ∀ (s : State) (b : Bool), s.Inv →
    ((∀ cap, s.bufCap = some cap → s.cursor / 8 < cap) →
      ∃ u, Wrote s u 1 (fun _ => b) ∧ exec (.addBit b) s = .next (answered u 0 [])) ∧
    (∀ cap, s.bufCap = some cap → cap ≤ s.cursor / 8 → FaultsAtOnce (.addBit b) s .bufferFull)

/-- readBit (R96): the bit at the cursor, or OutOfBounds with the cursor unchanged when `cursor >> 3 >= len`. -/
def Obligations.ReadBitGivesTheBitAtTheCursor : Prop :=
  ∀ s : State,
    (s.cursor / 8 < s.len → exec .readBit s =
      .next (answered { s with cursor := s.cursor + 1 } (if s.bitAt s.cursor then 1 else 0) [])) ∧
    (s.len ≤ s.cursor / 8 → FaultsAtOnce .readBit s .outOfBounds)

/-! ### Integer Packer -/

/-- addUint (R111): the low `bits` bits of the value, least significant first; IllegalWidth before any change. -/
def Obligations.AddUintWritesTheLowBits : Prop :=
  ∀ (s : State) (v : Val) (bits : Width),
    (s.Inv → 1 ≤ bits.toNat → bits.toNat ≤ 64 → WritesField (.addUint v bits) s bits.toNat (fun i => v.getLsbD i)) ∧
    (bits.toNat < 1 ∨ 64 < bits.toNat → FaultsAtOnce (.addUint v bits) s .illegalWidth)

/-- readUint (R113): the sum of `bit_i × 2^i`; IllegalWidth before any change. -/
def Obligations.ReadUintGivesTheField : Prop :=
  ∀ (s : State) (bits : Width),
    (s.Inv → 1 ≤ bits.toNat → bits.toNat ≤ 64 →
      ReadsField (.readUint bits) s bits.toNat (BitVec.ofNat 64 (s.fieldAt s.cursor bits.toNat)) ∧
      s.fieldAt s.cursor bits.toNat < 2 ^ 64) ∧
    (bits.toNat < 1 ∨ 64 < bits.toNat → FaultsAtOnce (.readUint bits) s .illegalWidth)

/-- addInt (R115): the sign, then the low `bits - 1` bits of the magnitude; IllegalWidth before any change. -/
def Obligations.AddIntWritesSignAndMagnitude : Prop :=
  ∀ (s : State) (v : Val) (bits : Width),
    (s.Inv → 2 ≤ bits.toNat → bits.toNat ≤ 64 →
      WritesField (.addInt v bits) s bits.toNat (signedFieldBit v.toInt)) ∧
    (bits.toNat < 2 ∨ 64 < bits.toNat → FaultsAtOnce (.addInt v bits) s .illegalWidth)

/-- readInt (R117): `m` or `-m - 1`, in two's complement on the port; the result lies in `[-(2^(n-1)), 2^(n-1) - 1]`;
IllegalWidth before any change. -/
def Obligations.ReadIntGivesTheSignedField : Prop :=
  ∀ (s : State) (bits : Width),
    (s.Inv → 2 ≤ bits.toNat → bits.toNat ≤ 64 →
      ReadsField (.readInt bits) s bits.toNat (BitVec.ofInt 64 (s.signedFieldAt s.cursor bits.toNat)) ∧
      -(2 ^ (bits.toNat - 1) : Int) ≤ s.signedFieldAt s.cursor bits.toNat ∧
      s.signedFieldAt s.cursor bits.toNat ≤ (2 ^ (bits.toNat - 1) : Int) - 1) ∧
    (bits.toNat < 2 ∨ 64 < bits.toNat → FaultsAtOnce (.readInt bits) s .illegalWidth)

/-- The magnitude of a signed operand on its 64-bit pattern `t` (R114, which the spec derives): the sign is `t[63]`, and the
magnitude's bits are those of `t`, complemented when the sign is set. -/
def Obligations.SignedFieldComplementsNegatives : Prop :=
  ∀ (v : Val) (i : Nat), i < 64 →
    signedFieldBit v.toInt i = if i = 0 then v.getLsbD 63 else Bool.xor (v.getLsbD 63) (v.getLsbD (i - 1))

/-- Unsigned round trip (R118 law 1): `readUint(n)` after `addUint(v, n)` on an empty instance and transfer returns
`v mod 2^n`. -/
def Obligations.UnsignedRoundTrip : Prop :=
  ∀ (s : State) (v : Val) (bits : Width), 1 ≤ bits.toNat → bits.toNat ≤ 64 →
    (∀ cap, s.bufCap = some cap → bits.toNat ≤ 8 * cap) →
    ∃ r, ReadsBack s [.addUint v bits] (.readUint bits) r ∧ r.status = 0 ∧
      r.value.toNat = v.toNat % 2 ^ bits.toNat

/-- Signed round trip (R118 laws 2 and 3): a value in range comes back; out of range the magnitude is cut to `n - 1` bits
and the sign never flips. -/
def Obligations.SignedRoundTrip : Prop :=
  ∀ (s : State) (v : Val) (bits : Width), 2 ≤ bits.toNat → bits.toNat ≤ 64 →
    (∀ cap, s.bufCap = some cap → bits.toNat ≤ 8 * cap) →
    ∃ r, ReadsBack s [.addInt v bits] (.readInt bits) r ∧ r.status = 0 ∧
      (-(2 ^ (bits.toNat - 1) : Int) ≤ v.toInt → v.toInt ≤ (2 ^ (bits.toNat - 1) : Int) - 1 → r.value = v) ∧
      (0 ≤ v.toInt → r.value.toInt = v.toInt % 2 ^ (bits.toNat - 1)) ∧
      (v.toInt < 0 → r.value.toInt = -((-v.toInt - 1) % 2 ^ (bits.toNat - 1)) - 1)

/-! ### Float Packer -/

/-- FDECOMP32 and FDECOMP64 are the formulas of R132 and R140 on the real value: `exponent = floor(log2 |value|)`,
`n = (mantissa - 1) × 2^23` (or 2^52) with `mantissa = |value| / 2^exponent`, an integer below 2^23 (2^52). -/
def Obligations.DecompositionIsTheExactFormula : Prop :=
  ∀ (f : FloatFmt) (p : Nat), isFloatFmt f → p < 2 ^ (1 + f.eb + f.fb) → f.unsupported p = false →
    f.isZero p = false →
    (f.decomp p).1 = Int.log 2 |f.value p| ∧
    ((f.decomp p).2 : ℚ) = (|f.value p| / (2 : ℚ) ^ (f.decomp p).1 - 1) * 2 ^ f.fb ∧
    (f.decomp p).2 < 2 ^ f.fb

/-- FRECOMP32 and FRECOMP64 (R136, R144): the exact product when it is a normal number, else the subnormal nearest to it,
ties to even; never an infinity or a NaN. -/
def Obligations.RecompositionIsExactOrNearestEven : Prop :=
  ∀ (f : FloatFmt) (sign : Bool) (e : Int) (n : Nat), isFloatFmt f → n < 2 ^ f.fb →
    -(f.bias : Int) - 1 ≤ e → e ≤ f.bias →
    f.unsupported (f.recomp sign e n) = false ∧ f.recomp sign e n < 2 ^ (1 + f.eb + f.fb) ∧
    (1 - (f.bias : Int) ≤ e → f.value (f.recomp sign e n) =
      (if sign then -1 else 1) * ((2 : ℚ) ^ f.fb + n) * (2 : ℚ) ^ (e - (f.fb : ℤ))) ∧
    (e < 1 - (f.bias : Int) → ∃ q sh : Nat, (sh : Int) = 1 - f.bias - e ∧
      f.value (f.recomp sign e n) = (if sign then -1 else 1) * (q : ℚ) * (2 : ℚ) ^ (1 - (f.bias : ℤ) - (f.fb : ℤ)) ∧
      2 * |(q : ℚ) * 2 ^ sh - (2 ^ f.fb + n)| ≤ 2 ^ sh ∧
      (2 * |(q : ℚ) * 2 ^ sh - (2 ^ f.fb + n)| = 2 ^ sh → q % 2 = 0))

/-- addFloat (R133), on the fields `S = P[31]`, `E = P[30:23]`, `F = P[22:0]`: UnsupportedFloat for `E = 255`, 32 zero bits
for a zero, else the sign, the exponent and the fraction FDECOMP32 gives. -/
def Obligations.AddFloatWritesTheDecomposition : Prop :=
  ∀ (s : State) (P : BitVec 32),
    (P.extractLsb' 23 8 = 255 → FaultsAtOnce (.addFloat P) s .unsupportedFloat) ∧
    (s.Inv → P.extractLsb' 23 8 ≠ 255 →
      (P.extractLsb' 23 8 = 0 → P.extractLsb' 0 23 = 0 → WritesField (.addFloat P) s 32 (fun _ => false)) ∧
      (¬ (P.extractLsb' 23 8 = 0 ∧ P.extractLsb' 0 23 = 0) → WritesField (.addFloat P) s 32
        (floatFieldBit 8 (P.getLsbD 31) (float32.decomp P.toNat).1 (float32.decomp P.toNat).2)))

/-- readFloat (R137): sign, exponent of 8 bits, fraction of 23 bits; zero when exponent and fraction are zero, whatever the
sign, else FRECOMP32. -/
def Obligations.ReadFloatGivesTheRecomposition : Prop :=
  ∀ s : State, s.Inv → ReadsField .readFloat s 32
    (if s.signedFieldAt (s.cursor + 1) 8 = 0 ∧ s.fieldAt (s.cursor + 9) 23 = 0 then 0
     else BitVec.ofNat 64
      (float32.recomp (s.bitAt s.cursor) (s.signedFieldAt (s.cursor + 1) 8) (s.fieldAt (s.cursor + 9) 23)))

/-- addDouble (R141), on the fields `S = P[63]`, `E = P[62:52]`, `F = P[51:0]`. -/
def Obligations.AddDoubleWritesTheDecomposition : Prop :=
  ∀ (s : State) (P : BitVec 64),
    (P.extractLsb' 52 11 = 2047 → FaultsAtOnce (.addDouble P) s .unsupportedFloat) ∧
    (s.Inv → P.extractLsb' 52 11 ≠ 2047 →
      (P.extractLsb' 52 11 = 0 → P.extractLsb' 0 52 = 0 → WritesField (.addDouble P) s 64 (fun _ => false)) ∧
      (¬ (P.extractLsb' 52 11 = 0 ∧ P.extractLsb' 0 52 = 0) → WritesField (.addDouble P) s 64
        (floatFieldBit 11 (P.getLsbD 63) (float64.decomp P.toNat).1 (float64.decomp P.toNat).2)))

/-- readDouble (R145): as readFloat with an exponent of 11 bits and a fraction of 52. -/
def Obligations.ReadDoubleGivesTheRecomposition : Prop :=
  ∀ s : State, s.Inv → ReadsField .readDouble s 64
    (if s.signedFieldAt (s.cursor + 1) 11 = 0 ∧ s.fieldAt (s.cursor + 12) 52 = 0 then 0
     else BitVec.ofNat 64
      (float64.recomp (s.bitAt s.cursor) (s.signedFieldAt (s.cursor + 1) 11) (s.fieldAt (s.cursor + 12) 52)))

/-- What readFloat and readDouble never return (R138 item 2, R145): an infinity or a NaN, `-0`, `+1.0`, `-1.0`. -/
def Obligations.ReadsNeverGiveInfinityNaNOrOne : Prop :=
  ∀ (s t : State) (r : Response), s.Inv → t.lastResponse = some r → r.status = 0 →
    (exec .readFloat s = .next t → r.value.extractLsb' 23 8 ≠ 255 ∧ r.value.extractLsb' 32 32 = 0 ∧
      r.value ≠ 0x80000000 ∧ r.value ≠ 0x3F800000 ∧ r.value ≠ 0xBF800000) ∧
    (exec .readDouble s = .next t → r.value.extractLsb' 52 11 ≠ 2047 ∧ r.value ≠ 0x8000000000000000 ∧
      r.value ≠ 0x3FF0000000000000 ∧ r.value ≠ 0xBFF0000000000000)

/-- The round trip of a binary32 pattern (the table of R139, which the spec derives). -/
def Obligations.FloatRoundTrip : Prop :=
  ∀ (s : State) (P : BitVec 32), P.extractLsb' 23 8 ≠ 255 → (∀ cap, s.bufCap = some cap → 4 ≤ cap) →
    ∃ r, ReadsBack s [.addFloat P] .readFloat r ∧ r.status = 0 ∧
      (P = 0x00000000 ∨ P = 0x80000000 ∨ P = 0x3F800000 ∨ P = 0xBF800000 → r.value = 0) ∧
      (P.extractLsb' 23 8 ≠ 0 → P ≠ 0x3F800000 → P ≠ 0xBF800000 → r.value = P.setWidth 64) ∧
      (P.extractLsb' 23 8 = 0 → 2 ^ 21 ≤ (P.extractLsb' 0 23).toNat → r.value = P.setWidth 64) ∧
      (P.extractLsb' 23 8 = 0 → P.extractLsb' 0 23 ≠ 0 → (P.extractLsb' 0 23).toNat < 2 ^ 21 →
        float32.value r.value.toNat = float32.value P.toNat * 2 ^ 128)

/-- The round trip of a binary64 pattern (R146, which the spec derives). -/
def Obligations.DoubleRoundTrip : Prop :=
  ∀ (s : State) (P : BitVec 64), P.extractLsb' 52 11 ≠ 2047 → (∀ cap, s.bufCap = some cap → 8 ≤ cap) →
    ∃ r, ReadsBack s [.addDouble P] .readDouble r ∧ r.status = 0 ∧
      (P = 0 ∨ P = 0x8000000000000000 ∨ P = 0x3FF0000000000000 ∨ P = 0xBFF0000000000000 → r.value = 0) ∧
      (P.extractLsb' 52 11 ≠ 0 → P ≠ 0x3FF0000000000000 → P ≠ 0xBFF0000000000000 → r.value = P) ∧
      (P.extractLsb' 52 11 = 0 → 2 ^ 50 ≤ (P.extractLsb' 0 52).toNat → r.value = P) ∧
      (P.extractLsb' 52 11 = 0 → P.extractLsb' 0 52 ≠ 0 → (P.extractLsb' 0 52).toNat < 2 ^ 50 →
        float64.value r.value.toNat = float64.value P.toNat * 2 ^ 1024)

/-! ### String Packer -/

/-- addString (R160): each character as eight bits, then eight zero bits; a zero character is written like any other. -/
def Obligations.AddStringWritesCharactersAndTerminator : Prop :=
  ∀ (s : State) (chars : List Byte), s.Inv →
    WritesField (.addString chars) s (8 * (chars.length + 1)) (stringFieldBit chars)

/-- readString (R161). With `k` non-zero characters at the cursor: a readable zero character after them ends the command
with the `k` characters and is consumed; a cursor at the end of the buffer after at least one of them ends it too; and where
fewer than eight bits are left for the next character, and it is the first or bits are left at all, it ends with
OutOfBounds. A count of 2^64 or more has no stated value (log entry 8); what a faulting readString gave is free (log entry
7). -/
def Obligations.ReadStringStopsAtZeroOrEnd : Prop :=
  ∀ (s : State) (k : Nat), s.Inv → (∀ j, j < k → s.charAt j ≠ 0) → s.Readable (8 * k) →
    (s.Readable (8 * (k + 1)) → s.charAt k = 0 → ∃ value, (k < 2 ^ 64 → value = BitVec.ofNat 64 k) ∧
      exec .readString s = .next (answered { s with cursor := s.cursor + 8 * (k + 1) } value (s.charsAt k))) ∧
    (1 ≤ k → s.cursor + 8 * k = 8 * s.len → ∃ value, (k < 2 ^ 64 → value = BitVec.ofNat 64 k) ∧
      exec .readString s = .next (answered { s with cursor := s.cursor + 8 * k } value (s.charsAt k))) ∧
    (¬ s.Readable (8 * (k + 1)) → k = 0 ∨ s.cursor + 8 * k < 8 * s.len → ∃ t out, exec .readString s = .next t ∧
      Faulted { s with cursor := 8 * s.len } t .outOfBounds out)

/-- The result of readString (R162 items 1 and 5, which the spec derives): at most `len` characters, none of them zero. -/
def Obligations.ReadStringResultHasNoZero : Prop :=
  ∀ (s t : State) (r : Response), s.Inv → exec .readString s = .next t → t.lastResponse = some r → r.status = 0 →
    r.out.length ≤ s.len ∧ (∀ c ∈ r.out, c ≠ 0) ∧ (r.out.length < 2 ^ 64 → r.value = BitVec.ofNat 64 r.out.length)

/-- More turns than `len + 1` give readString's loop nothing more (R162 item 1, which the spec derives; log entry 15): the
model's bound on the turns is never what ends it. -/
def Obligations.ReadStringTurnsSuffice : Prop :=
  ∀ (s : State) (fuel : Nat), s.len + 1 ≤ fuel → readChars fuel [] s = readChars (s.len + 1) [] s

/-- String round trip (R163): a payload without a zero byte comes back exactly, and both sides cost `8 × (N + 1)` bits. -/
def Obligations.StringRoundTrip : Prop :=
  ∀ (s : State) (chars : List Byte), (∀ c ∈ chars, c ≠ 0) →
    (∀ cap, s.bufCap = some cap → chars.length + 1 ≤ cap) →
    ∃ t u g r, execs [.init, .addString chars, .getBuf] s = .next t ∧ t.cursor = 8 * (chars.length + 1) ∧
      t.lastResponse = some g ∧ g.status = 0 ∧ execs [.load g.out, .readString] t = .next u ∧
      u.cursor = 8 * (chars.length + 1) ∧ u.lastResponse = some r ∧ r.status = 0 ∧ r.out = chars ∧
      (chars.length < 2 ^ 64 → r.value = BitVec.ofNat 64 chars.length)
end

