-- ==== Sys2Proof/Laws/Memory.lean ====
section
/-! SUPPORT. The laws of the buffer's cells: a read after a write, and that every memory operation keeps the canonical form. -/

namespace Sys2Proof.Machine.Memory

@[simp] theorem read_nil (a : Nat) : read [] a = 0#8 := rfl

theorem read_cell_below (k : Nat) (v : Byte) (rest : Memory) (a : Nat)
    (h : ∀ b, b ≤ k → read rest b = 0#8) :
    read (cell k v rest) a = if a = k then v else read rest a := by
  unfold cell
  by_cases hv : v = unlisted
  · by_cases ha : a = k
    · subst ha; simp [hv, h a (Nat.le_refl a)]; rfl
    · simp [hv, ha]
  · by_cases ha : a = k
    · simp [hv, ha, read]
    · have : ¬ k = a := fun e => ha e.symm
      simp [hv, ha, read, this]

theorem read_of_wfFrom (m : Memory) : ∀ (lo a : Nat), wfFrom lo m = true → a < lo → read m a = 0#8 := by
  induction m with
  | nil => intros; rfl
  | cons c rest ih =>
    obtain ⟨k, v⟩ := c
    intro lo a h ha
    simp only [wfFrom, Bool.and_eq_true, decide_eq_true_eq] at h
    have hk : ¬ k = a := by omega
    simp only [read, hk, if_false]
    exact ih (k + 1) a h.2 (by omega)

theorem wfFrom_mono (m : Memory) : ∀ (lo lo' : Nat), lo' ≤ lo → wfFrom lo m = true → wfFrom lo' m = true := by
  cases m with
  | nil => intros; rfl
  | cons c rest =>
    obtain ⟨k, v⟩ := c
    intro lo lo' hle h
    simp only [wfFrom, Bool.and_eq_true, decide_eq_true_eq] at h ⊢
    exact ⟨⟨by omega, h.1.2⟩, h.2⟩

theorem wfFrom_cell (lo k : Nat) (v : Byte) (rest : Memory) (hk : lo ≤ k) (h : wfFrom (k + 1) rest = true) :
    wfFrom lo (cell k v rest) = true := by
  unfold cell
  split
  · exact wfFrom_mono rest (k + 1) lo (by omega) h
  · rename_i hv
    simp only [wfFrom, Bool.and_eq_true, decide_eq_true_eq, bne_iff_ne]
    exact ⟨⟨hk, hv⟩, h⟩

theorem wfFrom_write (m : Memory) : ∀ (lo a : Nat) (v : Byte), wfFrom lo m = true → lo ≤ a →
    wfFrom lo (write m a v) = true := by
  induction m with
  | nil => intro lo a v _ ha; exact wfFrom_cell lo a v [] ha rfl
  | cons c rest ih =>
    obtain ⟨k, u⟩ := c
    intro lo a v h ha
    have h' := h
    simp only [wfFrom, Bool.and_eq_true, decide_eq_true_eq] at h'
    unfold write
    split
    · simp only [wfFrom, Bool.and_eq_true, decide_eq_true_eq]
      exact ⟨h'.1, ih (k + 1) a v h'.2 (by omega)⟩
    · split
      · rename_i _ hka; subst hka; exact wfFrom_cell lo k v rest ha h'.2
      · refine wfFrom_cell lo a v _ ha ?_
        simp only [wfFrom, Bool.and_eq_true, decide_eq_true_eq]
        exact ⟨⟨by omega, h'.1.2⟩, h'.2⟩

/-- Writing keeps the canonical form. -/
theorem wf_write (m : Memory) (a : Nat) (v : Byte) (h : wf m = true) : wf (write m a v) = true :=
  wfFrom_write m 0 a v h (Nat.zero_le a)

theorem read_write_from (m : Memory) : ∀ (lo a : Nat) (v : Byte) (b : Nat), wfFrom lo m = true →
    read (write m a v) b = if b = a then v else read m b := by
  induction m with
  | nil => intro lo a v b _; exact read_cell_below a v [] b (fun _ _ => rfl)
  | cons c rest ih =>
    obtain ⟨k, u⟩ := c
    intro lo a v b h
    simp only [wfFrom, Bool.and_eq_true, decide_eq_true_eq] at h
    have hrest : ∀ x, x ≤ k → read rest x = 0#8 := fun x hx => read_of_wfFrom rest (k + 1) x h.2 (by omega)
    unfold write
    split
    · rename_i hka
      simp only [read]
      by_cases hkb : k = b
      · have : ¬ b = a := by omega
        simp [hkb, this]
      · simp only [hkb, if_false]; exact ih (k + 1) a v b h.2
    · split
      · rename_i _ hka
        subst hka
        rw [read_cell_below k v rest b hrest]
        by_cases hb : b = k
        · simp [hb]
        · have : ¬ k = b := fun e => hb e.symm
          simp [hb, read, this]
      · refine read_cell_below a v _ b ?_
        intro x hx
        have : ¬ k = x := by omega
        simp only [read, this, if_false]
        exact hrest x (by omega)

/-- A read after a write: the value written at the place written, the old value elsewhere. -/
theorem read_write (m : Memory) (a b : Nat) (v : Byte) (h : wf m = true) :
    read (write m a v) b = if b = a then v else read m b :=
  read_write_from m 0 a v b h

theorem below_cell (n k : Nat) (v : Byte) (rest : Memory) (hk : k < n) (h : below n rest = true) :
    below n (cell k v rest) = true := by
  unfold cell
  split
  · exact h
  · simp only [below, List.all_cons, Bool.and_eq_true, decide_eq_true_eq]
    exact ⟨hk, h⟩

/-- A write below `n` lists nothing at `n` or above. -/
theorem below_write (m : Memory) (n a : Nat) (v : Byte) (ha : a < n) (h : below n m = true) :
    below n (write m a v) = true := by
  induction m with
  | nil => exact below_cell n a v [] ha rfl
  | cons c rest ih =>
    obtain ⟨k, u⟩ := c
    have h' := h
    simp only [below, List.all_cons, Bool.and_eq_true, decide_eq_true_eq] at h'
    unfold write
    split
    · simp only [below, List.all_cons, Bool.and_eq_true, decide_eq_true_eq]
      exact ⟨h'.1, ih h'.2⟩
    · split
      · exact below_cell n a v rest ha h'.2
      · exact below_cell n a v _ ha h

theorem below_mono (m : Memory) (n n' : Nat) (hle : n ≤ n') (h : below n m = true) : below n' m = true := by
  simp only [below, List.all_eq_true, decide_eq_true_eq] at h ⊢
  intro c hc
  exact Nat.lt_of_lt_of_le (h c hc) hle

theorem read_of_below (m : Memory) (n a : Nat) (h : below n m = true) (ha : n ≤ a) : read m a = 0#8 := by
  induction m with
  | nil => rfl
  | cons c rest ih =>
    obtain ⟨k, v⟩ := c
    simp only [below, List.all_cons, Bool.and_eq_true, decide_eq_true_eq] at h
    have hk : ¬ k = a := by omega
    simp only [read, hk, if_false]
    exact ih h.2

theorem wfFrom_ofBytesFrom (bytes : List Byte) : ∀ (lo a : Nat), lo ≤ a → wfFrom lo (ofBytesFrom a bytes) = true := by
  induction bytes with
  | nil => intros; rfl
  | cons b rest ih => intro lo a h; exact wfFrom_cell lo a b _ h (ih (a + 1) (a + 1) (Nat.le_refl _))

/-- A buffer made from bytes is in canonical form. -/
theorem wf_ofBytes (bytes : List Byte) : wf (ofBytes bytes) = true :=
  wfFrom_ofBytesFrom bytes 0 0 (Nat.le_refl 0)

theorem read_ofBytesFrom (bytes : List Byte) : ∀ (a b : Nat),
    read (ofBytesFrom a bytes) b = if a ≤ b then bytes.getD (b - a) 0#8 else 0#8 := by
  induction bytes with
  | nil => intro a b; simp [ofBytesFrom]
  | cons x rest ih =>
    intro a b
    rw [ofBytesFrom, read_cell_below a x _ b (fun c hc => read_of_wfFrom _ (a + 1) c
      (wfFrom_ofBytesFrom rest (a + 1) (a + 1) (Nat.le_refl _)) (by omega)), ih]
    by_cases hb : b = a
    · subst hb; simp
    · by_cases hlt : a ≤ b
      · have h1 : a + 1 ≤ b := by omega
        obtain ⟨d, hd⟩ : ∃ d, b - a = d + 1 := ⟨b - a - 1, by omega⟩
        have h2 : b - (a + 1) = d := by omega
        simp [hb, hlt, h1, hd, h2]
      · have h1 : ¬ a + 1 ≤ b := by omega
        simp [hb, hlt, h1]

/-- The bytes a buffer was made from are read back at their indexes. -/
theorem read_ofBytes (bytes : List Byte) (a : Nat) : read (ofBytes bytes) a = bytes.getD a 0#8 := by
  simp [ofBytes, read_ofBytesFrom]

theorem below_ofBytesFrom (bytes : List Byte) : ∀ (a n : Nat), a + bytes.length ≤ n →
    below n (ofBytesFrom a bytes) = true := by
  induction bytes with
  | nil => intros; rfl
  | cons b rest ih =>
    intro a n h
    simp only [List.length_cons] at h
    exact below_cell n a b _ (by omega) (ih (a + 1) n (by omega))

/-- A buffer made from bytes lists nothing at or above their number. -/
theorem below_ofBytes (bytes : List Byte) : below bytes.length (ofBytes bytes) = true :=
  below_ofBytesFrom bytes 0 bytes.length (by omega)

@[simp] theorem length_bytesFrom (m : Memory) : ∀ (n a : Nat), (bytesFrom m a n).length = n := by
  intro n
  induction n with
  | zero => intro a; rfl
  | succ n ih => intro a; simp [bytesFrom, ih]

theorem getD_bytesFrom (m : Memory) : ∀ (n a i : Nat), i < n → (bytesFrom m a n).getD i 0#8 = read m (a + i) := by
  intro n
  induction n with
  | zero => intro a i h; omega
  | succ n ih =>
    intro a i h
    cases i with
    | zero => simp [bytesFrom]
    | succ i =>
      simp only [bytesFrom, List.getD_cons_succ]
      rw [ih (a + 1) i (by omega)]
      congr 1; omega

/-- Two canonical buffers that read alike are the same data. -/
theorem ext_of_read_from (m : Memory) : ∀ (m' : Memory) (lo : Nat), wfFrom lo m = true → wfFrom lo m' = true →
    (∀ a, read m a = read m' a) → m = m' := by
  induction m with
  | nil =>
    intro m' lo _ h' heq
    cases m' with
    | nil => rfl
    | cons c rest =>
      obtain ⟨k, v⟩ := c
      simp only [wfFrom, Bool.and_eq_true, decide_eq_true_eq, bne_iff_ne] at h'
      have := heq k
      simp [read] at this
      exact absurd this.symm h'.1.2
  | cons c rest ih =>
    obtain ⟨k, v⟩ := c
    intro m' lo h h' heq
    simp only [wfFrom, Bool.and_eq_true, decide_eq_true_eq, bne_iff_ne] at h
    cases m' with
    | nil =>
      have := heq k
      simp [read] at this
      exact absurd this h.1.2
    | cons c' rest' =>
      obtain ⟨k', v'⟩ := c'
      simp only [wfFrom, Bool.and_eq_true, decide_eq_true_eq, bne_iff_ne] at h'
      have hkk : k = k' := by
        rcases Nat.lt_trichotomy k k' with hlt | heq' | hgt
        · have e := heq k
          have hne : ¬ k' = k := by omega
          have hz := read_of_wfFrom rest' (k' + 1) k h'.2 (by omega)
          simp [read, hne, hz] at e
          exact absurd e h.1.2
        · exact heq'
        · have e := heq k'
          have hne : ¬ k = k' := by omega
          have hz := read_of_wfFrom rest (k + 1) k' h.2 (by omega)
          simp [read, hne, hz] at e
          exact absurd e.symm h'.1.2
      subst hkk
      have hv : v = v' := by have := heq k; simpa [read] using this
      subst hv
      have : rest = rest' := by
        refine ih rest' (k + 1) h.2 h'.2 fun a => ?_
        by_cases ha : k = a
        · subst ha
          rw [read_of_wfFrom rest (k + 1) k h.2 (by omega), read_of_wfFrom rest' (k + 1) k h'.2 (by omega)]
        · have := heq a; simpa [read, ha] using this
      rw [this]

theorem ext_of_read (m m' : Memory) (h : wf m = true) (h' : wf m' = true) (heq : ∀ a, read m a = read m' a) : m = m' :=
  ext_of_read_from m m' 0 h h' heq

end Sys2Proof.Machine.Memory
end

