-- ==== Sys2Proof/Laws/State.lean ====
section
/-! SUPPORT. One lemma per field and update of State, and the frame of each update, so that no later proof unfolds a
record update. -/

namespace Sys2Proof.Machine

@[simp] theorem appendZero_buf (s : State) : (appendZero s).buf = s.buf.write s.len 0 := rfl
@[simp] theorem appendZero_len (s : State) : (appendZero s).len = s.len + 1 := rfl
@[simp] theorem appendZero_cursor (s : State) : (appendZero s).cursor = s.cursor := rfl
@[simp] theorem appendZero_err (s : State) : (appendZero s).err = s.err := rfl
@[simp] theorem appendZero_bufCap (s : State) : (appendZero s).bufCap = s.bufCap := rfl
@[simp] theorem appendZero_pending (s : State) : (appendZero s).pending = s.pending := rfl
@[simp] theorem appendZero_responses (s : State) : (appendZero s).responses = s.responses := rfl
@[simp] theorem appendZero_freeCount (s : State) : (appendZero s).freeCount = s.freeCount := rfl

@[simp] theorem makeEmpty_buf (s : State) : (makeEmpty s).buf = [] := rfl
@[simp] theorem makeEmpty_len (s : State) : (makeEmpty s).len = 0 := rfl
@[simp] theorem makeEmpty_cursor (s : State) : (makeEmpty s).cursor = 0 := rfl
@[simp] theorem makeEmpty_err (s : State) : (makeEmpty s).err = 0 := rfl
@[simp] theorem makeEmpty_bufCap (s : State) : (makeEmpty s).bufCap = s.bufCap := rfl
@[simp] theorem makeEmpty_pending (s : State) : (makeEmpty s).pending = s.pending := rfl
@[simp] theorem makeEmpty_responses (s : State) : (makeEmpty s).responses = s.responses := rfl
@[simp] theorem makeEmpty_freeCount (s : State) : (makeEmpty s).freeCount = s.freeCount := rfl

@[simp] theorem makeLoaded_buf (bytes : List Byte) (s : State) : (makeLoaded bytes s).buf = Memory.ofBytes bytes := rfl
@[simp] theorem makeLoaded_len (bytes : List Byte) (s : State) : (makeLoaded bytes s).len = bytes.length := rfl
@[simp] theorem makeLoaded_cursor (bytes : List Byte) (s : State) : (makeLoaded bytes s).cursor = 0 := rfl
@[simp] theorem makeLoaded_err (bytes : List Byte) (s : State) : (makeLoaded bytes s).err = 0 := rfl
@[simp] theorem makeLoaded_bufCap (bytes : List Byte) (s : State) : (makeLoaded bytes s).bufCap = s.bufCap := rfl
@[simp] theorem makeLoaded_pending (bytes : List Byte) (s : State) : (makeLoaded bytes s).pending = s.pending := rfl
@[simp] theorem makeLoaded_responses (bytes : List Byte) (s : State) : (makeLoaded bytes s).responses = s.responses := rfl
@[simp] theorem makeLoaded_freeCount (bytes : List Byte) (s : State) : (makeLoaded bytes s).freeCount = s.freeCount := rfl

@[simp] theorem respond_buf (r : Result) (s : State) : (respond r s).buf = s.buf := rfl
@[simp] theorem respond_len (r : Result) (s : State) : (respond r s).len = s.len := rfl
@[simp] theorem respond_cursor (r : Result) (s : State) : (respond r s).cursor = s.cursor := rfl
@[simp] theorem respond_err (r : Result) (s : State) : (respond r s).err = s.err := rfl
@[simp] theorem respond_bufCap (r : Result) (s : State) : (respond r s).bufCap = s.bufCap := rfl
@[simp] theorem respond_pending (r : Result) (s : State) : (respond r s).pending = s.pending := rfl
@[simp] theorem respond_responses (r : Result) (s : State) : (respond r s).responses = s.responses ++
    [{ status := 0, errs := errsField s.err, value := r.value, out := r.out }] := rfl
@[simp] theorem respond_freeCount (r : Result) (s : State) : (respond r s).freeCount = s.freeCount := rfl

@[simp] theorem takeFault_buf (c : FaultCode) (out : List Byte) (s : State) : (takeFault c out s).buf = s.buf := rfl
@[simp] theorem takeFault_len (c : FaultCode) (out : List Byte) (s : State) : (takeFault c out s).len = s.len := rfl
@[simp] theorem takeFault_cursor (c : FaultCode) (out : List Byte) (s : State) : (takeFault c out s).cursor = s.cursor := rfl
@[simp] theorem takeFault_err (c : FaultCode) (out : List Byte) (s : State) : (takeFault c out s).err = setFlag c s.err := rfl
@[simp] theorem takeFault_bufCap (c : FaultCode) (out : List Byte) (s : State) : (takeFault c out s).bufCap = s.bufCap := rfl
@[simp] theorem takeFault_pending (c : FaultCode) (out : List Byte) (s : State) : (takeFault c out s).pending = s.pending := rfl
@[simp] theorem takeFault_responses (c : FaultCode) (out : List Byte) (s : State) : (takeFault c out s).responses = s.responses ++
    [{ status := c.status, errs := errsField (setFlag c s.err), value := Config.faultValue s.freeCount, out := out }] := rfl
@[simp] theorem takeFault_freeCount (c : FaultCode) (out : List Byte) (s : State) : (takeFault c out s).freeCount = s.freeCount + 1 := rfl

@[simp] theorem answered_buf (s : State) (v : Val) (out : List Byte) : (answered s v out).buf = s.buf := rfl
@[simp] theorem answered_len (s : State) (v : Val) (out : List Byte) : (answered s v out).len = s.len := rfl
@[simp] theorem answered_cursor (s : State) (v : Val) (out : List Byte) : (answered s v out).cursor = s.cursor := rfl
@[simp] theorem answered_err (s : State) (v : Val) (out : List Byte) : (answered s v out).err = s.err := rfl
@[simp] theorem answered_bufCap (s : State) (v : Val) (out : List Byte) : (answered s v out).bufCap = s.bufCap := rfl
@[simp] theorem answered_pending (s : State) (v : Val) (out : List Byte) : (answered s v out).pending = s.pending := rfl
@[simp] theorem answered_responses (s : State) (v : Val) (out : List Byte) : (answered s v out).responses = s.responses ++
    [{ status := 0, errs := s.err.setWidth 8, value := v, out := out }] := rfl
@[simp] theorem answered_freeCount (s : State) (v : Val) (out : List Byte) : (answered s v out).freeCount = s.freeCount := rfl

theorem respond_eq_answered (r : Result) (s : State) : respond r s = answered s r.value r.out := rfl

/-- What taking a fault does, once for every fault (R178, R179). -/
theorem takeFault_faulted (c : FaultCode) (out : List Byte) (s : State) : Faulted s (takeFault c out s) c out where
  frame := rfl
  flags := by
    intro k hk
    have : k = 0 ∨ k = 1 ∨ k = 2 ∨ k = 3 ∨ k = 4 := by omega
    cases c <;> rcases this with rfl | rfl | rfl | rfl | rfl <;> simp [setFlag, FaultCode.number]
  report := ⟨Config.faultValue s.freeCount, rfl⟩

@[simp] theorem finish_ok (a : Result) (s : State) : finish (.ok a s) = .next (answered s a.value a.out) := rfl
@[simp] theorem finish_raise (c : FaultCode) (s : State) : finish (.raise c s) = .next (takeFault c [] s) := rfl
@[simp] theorem finishPayload_ok (a : Result) (s : State) :
    finishPayload (.ok a s) = .next (answered s a.value a.out) := rfl
@[simp] theorem finishPayload_raise (c : FaultCode) (s : State) :
    finishPayload (.raise c s) = .next (takeFault c (Config.faultPayload s.freeCount) s) := rfl

@[simp] theorem Run.ok_bind {α β : Type} (a : α) (s : State) (k : α → State → Run β) :
    (Run.ok a s).bind k = k a s := rfl
@[simp] theorem Run.raise_bind {α β : Type} (c : FaultCode) (s : State) (k : α → State → Run β) :
    (Run.raise c s : Run α).bind k = .raise c s := rfl

theorem Run.bind_assoc {α β γ : Type} (r : Run α) (k : α → State → Run β) (l : β → State → Run γ) :
    (r.bind k).bind l = r.bind fun a s => (k a s).bind l := by cases r <;> rfl

theorem reset_inv : State.reset.Inv where
  canonical := rfl
  within := rfl
  cursorInside := by decide
  lenInCap := by intro cap h; cases h

end Sys2Proof.Machine
end

