-- ==== Sys2Proof/Laws/Ops.lean ====
section
/-! SUPPORT. What each shared operation does, once: the bit steps, the fields made of them, and how parts of a command
compose. Later proofs cite these instead of unfolding the operations. -/

namespace Sys2Proof.Machine

/-- The state a part of a command leaves, whichever way it ends. -/
def Run.state {α : Type} : Run α → State
  | .ok _ s => s
  | .raise _ s => s

@[simp] theorem Run.state_ok {α : Type} (a : α) (s : State) : (Run.ok a s).state = s := rfl
@[simp] theorem Run.state_raise {α : Type} (c : FaultCode) (s : State) : (Run.raise c s : Run α).state = s := rfl

/-- Every command ends with a next state that holds one response more (R66). -/
theorem finish_next (r : Run Result) : ∃ t, finish r = .next t := by cases r <;> exact ⟨_, rfl⟩

theorem finishPayload_next (r : Run Result) : ∃ t, finishPayload r = .next t := by cases r <;> exact ⟨_, rfl⟩

/-! ### Bits -/

theorem setBit_getLsbD (x : Byte) (k j : Nat) (b : Bool) (hk : k < 8) (hj : j < 8) :
    (setBit x k b).getLsbD j = if j = k then b else x.getLsbD j := by
  have hone : (1#8 <<< k).getLsbD j = decide (j = k) := by
    rw [BitVec.getLsbD_shiftLeft, BitVec.getLsbD_one]
    by_cases h : j = k
    · subst h; simp [hj]
    · by_cases hlt : j < k
      · simp [h, hlt]
      · have : ¬ j - k = 0 := by omega
        simp [h, this]
  unfold setBit
  cases b
  · simp only [Bool.false_eq_true, if_false, BitVec.getLsbD_and, BitVec.getLsbD_not, hone, hj]
    by_cases h : j = k <;> simp [h]
  · simp only [if_true, BitVec.getLsbD_or, hone]
    by_cases h : j = k <;> simp [h]

theorem byte_ext (x y : Byte) (h : ∀ j, j < 8 → x.getLsbD j = y.getLsbD j) : x = y :=
  BitVec.eq_of_getLsbD_eq fun i hi => h i hi

theorem bitAt_byte (s : State) (a j : Nat) (hj : j < 8) : s.bitAt (8 * a + j) = (s.buf.read a).getLsbD j := by
  have h1 : (8 * a + j) / 8 = a := by omega
  have h2 : (8 * a + j) % 8 = j := by omega
  simp [State.bitAt, h1, h2]

theorem bitAt_of_len_le (s : State) (hi : s.Inv) (p : Nat) (hp : 8 * s.len ≤ p) : s.bitAt p = false := by
  have : s.buf.read (p / 8) = 0#8 := Memory.read_of_below s.buf s.len _ hi.within (by omega)
  simp [State.bitAt, this]

/-! ### Room and capacity -/

theorem beyondCap_eq_false_iff (s : State) : s.beyondCap s.byteIndex = false ↔ s.Room 1 := by
  unfold State.beyondCap State.Room State.byteIndex
  cases s.bufCap with
  | none => simp
  | some cap =>
    simp only [decide_eq_false_iff_not, Nat.not_le, Option.some.injEq, forall_eq']
    omega

theorem Room.mono {s : State} {n m : Nat} (h : s.Room n) (hle : m ≤ n) : s.Room m := by
  intro cap hc
  have := h cap hc
  omega

theorem not_room {s : State} {n : Nat} (h : ¬ s.Room n) : ∃ cap, s.bufCap = some cap ∧ 8 * cap < s.cursor + n := by
  unfold State.Room at h
  simp only [not_forall, Nat.not_le] at h
  obtain ⟨cap, hc, hlt⟩ := h
  exact ⟨cap, hc, hlt⟩

theorem Inv.cursor_le_cap {s : State} (hi : s.Inv) {cap : Nat} (hc : s.bufCap = some cap) : s.cursor ≤ 8 * cap := by
  have := hi.cursorInside
  have := hi.lenInCap cap hc
  omega

/-! ### The two ways of a bit step, in every state -/

theorem readBit_inside (s : State) (h : s.cursor / 8 < s.len) :
    readBit s = .ok (s.bitAt s.cursor) { s with cursor := s.cursor + 1 } := by
  unfold readBit
  rw [if_neg (by unfold State.byteIndex; omega)]
  rfl

theorem readBit_outside (s : State) (h : s.len ≤ s.cursor / 8) : readBit s = .raise .outOfBounds s := by
  unfold readBit
  rw [if_pos (by unfold State.byteIndex; omega)]

theorem writeBit_beyond (s : State) (b : Bool) (cap : Nat) (hc : s.bufCap = some cap) (h : cap ≤ s.cursor / 8) :
    writeBit b s = .raise .bufferFull s := by
  unfold writeBit
  rw [if_pos]
  unfold State.beyondCap State.byteIndex
  rw [hc]
  exact decide_eq_true h

/-! ### Growing -/

theorem growTo_of_lt (s : State) (idx : Nat) (h : idx < s.len) : growTo idx s = s := by
  have : idx + 1 - s.len = 0 := by omega
  simp [growTo, this, appendZeros]

theorem growTo_len (s : State) : growTo s.len s = appendZero s := by
  have : s.len + 1 - s.len = 1 := by omega
  simp [growTo, this, appendZeros]

/-- In a state that meets the invariant, growing for the byte at the cursor appends at most one byte (R26), and that
byte is zero. -/
theorem growTo_byteIndex (s : State) (hi : s.Inv) :
    (s.byteIndex < s.len ∧ growTo s.byteIndex s = s) ∨
      (s.byteIndex = s.len ∧ s.cursor = 8 * s.len ∧ growTo s.byteIndex s = appendZero s) := by
  have hc := hi.cursorInside
  unfold State.byteIndex
  by_cases h : s.cursor / 8 < s.len
  · exact .inl ⟨h, growTo_of_lt s _ h⟩
  · have he : s.cursor / 8 = s.len := by omega
    exact .inr ⟨he, by omega, by rw [he]; exact growTo_len s⟩

theorem appendZero_read (s : State) (hi : s.Inv) (a : Nat) : (appendZero s).buf.read a = s.buf.read a := by
  simp only [appendZero_buf]
  rw [Memory.read_write s.buf s.len a 0 hi.canonical]
  split
  · rename_i h; subst h
    exact (Memory.read_of_below s.buf s.len s.len hi.within (Nat.le_refl _)).symm
  · rfl

/-! ### Writing a field -/

theorem Wrote.congr {s t : State} {n : Nat} {f g : Nat → Bool} (h : Wrote s t n f) (e : ∀ i, i < n → f i = g i) :
    Wrote s t n g where
  frame := h.frame
  cursor := h.cursor
  len := h.len
  bits := by
    intro p
    rw [h.bits p]
    by_cases hp : s.cursor ≤ p ∧ p < s.cursor + n
    · simp only [hp, and_self, if_true]; exact e _ (by omega)
    · simp only [hp, if_false]
  bytes := h.bytes

theorem bytes_of_bits {s t : State} {n : Nat}
    (hb : ∀ p, ¬ (s.cursor ≤ p ∧ p < s.cursor + n) → t.bitAt p = s.bitAt p)
    (a : Nat) (ha : a < s.byteIndex ∨ s.cursor + n ≤ 8 * a) : t.buf.read a = s.buf.read a := by
  refine byte_ext _ _ fun j hj => ?_
  unfold State.byteIndex at ha
  rw [← bitAt_byte t a j hj, ← bitAt_byte s a j hj]
  exact hb _ (by omega)

/-- Writing nothing. -/
theorem Wrote.refl (s : State) (hi : s.Inv) (f : Nat → Bool) : Wrote s s 0 f where
  frame := rfl
  cursor := rfl
  len := by have := hi.cursorInside; omega
  bits := by
    intro p
    have : ¬ (s.cursor ≤ p ∧ p < s.cursor + 0) := by omega
    simp only [this, if_false]
  bytes := fun _ _ => rfl

/-- Two fields one after the other. -/
theorem Wrote.trans {s t u : State} {n m : Nat} {f g : Nat → Bool} (h : Wrote s t n f) (k : Wrote t u m g) :
    Wrote s u (n + m) (fun i => if i < n then f i else g (i - n)) := by
  have hb : ∀ p, u.bitAt p = if s.cursor ≤ p ∧ p < s.cursor + (n + m) then
      (if p - s.cursor < n then f (p - s.cursor) else g (p - s.cursor - n)) else s.bitAt p := by
    intro p
    rw [k.bits p, h.bits p, h.cursor]
    by_cases h1 : s.cursor + n ≤ p ∧ p < s.cursor + n + m
    · have h2 : s.cursor ≤ p ∧ p < s.cursor + (n + m) := by omega
      have h3 : ¬ p - s.cursor < n := by omega
      have h4 : p - (s.cursor + n) = p - s.cursor - n := by omega
      simp only [h1, h2, h3, h4, and_self, if_true, if_false]
    · by_cases h2 : s.cursor ≤ p ∧ p < s.cursor + n
      · have h3 : s.cursor ≤ p ∧ p < s.cursor + (n + m) := by omega
        have h4 : p - s.cursor < n := by omega
        simp only [h1, h2, h3, h4, and_self, if_true, if_false]
      · have h3 : ¬ (s.cursor ≤ p ∧ p < s.cursor + (n + m)) := by omega
        simp only [h1, h2, h3, if_false]
  refine ⟨?_, ?_, ?_, hb, bytes_of_bits fun p hp => by rw [hb p]; simp only [hp, if_false]⟩
  · have e := k.frame
    rw [h.frame] at e
    exact e
  · rw [k.cursor, h.cursor]; omega
  · rw [k.len, h.len, h.cursor]; omega

/-- A part of a command that writes the field of `n` bits `f`: all of it when there is room, the bits that fit and then
BufferFull when a finite capacity leaves less (R176). -/
def Writes (run : State → Run Unit) (n : Nat) (f : Nat → Bool) : Prop :=
  ∀ s : State, s.Inv →
    (s.Room n → ∃ t, run s = .ok () t ∧ Wrote s t n f ∧ t.Inv) ∧
    (∀ cap, s.bufCap = some cap → 8 * cap < s.cursor + n →
      ∃ t, run s = .raise .bufferFull t ∧ Wrote s t (8 * cap - s.cursor) f ∧ t.cursor = 8 * cap ∧ t.len = cap ∧ t.Inv)

theorem Writes.congr {run : State → Run Unit} {n : Nat} {f g : Nat → Bool} (h : Writes run n f)
    (e : ∀ i, i < n → f i = g i) : Writes run n g := by
  intro s hi
  obtain ⟨h1, h2⟩ := h s hi
  refine ⟨fun hr => ?_, fun cap hc hlt => ?_⟩
  · obtain ⟨t, a, b, c⟩ := h1 hr
    exact ⟨t, a, b.congr e, c⟩
  · obtain ⟨t, a, b, c⟩ := h2 cap hc hlt
    exact ⟨t, a, b.congr fun i hlt' => e i (by omega), c⟩

/-- Nothing written. -/
theorem writes_nothing (f : Nat → Bool) : Writes (fun s => .ok () s) 0 f := by
  intro s hi
  refine ⟨fun _ => ⟨s, rfl, Wrote.refl s hi f, hi⟩, fun cap hc hlt => ?_⟩
  have := Inv.cursor_le_cap hi hc
  omega

/-- One field after another. -/
theorem Writes.bind {r q : State → Run Unit} {n m : Nat} {f g : Nat → Bool} (hr : Writes r n f) (hq : Writes q m g) :
    Writes (fun s => (r s).bind fun _ t => q t) (n + m) (fun i => if i < n then f i else g (i - n)) := by
  intro s hi
  obtain ⟨r1, r2⟩ := hr s hi
  refine ⟨fun room => ?_, fun cap hc hlt => ?_⟩
  · obtain ⟨t, e, w, it⟩ := r1 (Room.mono room (by omega))
    have rt : t.Room m := by
      intro cap hc
      have hcs : s.bufCap = some cap := by have := w.frame; rw [this] at hc; exact hc
      have := room cap hcs
      rw [w.cursor]; omega
    obtain ⟨u, e', w', iu⟩ := (hq t it).1 rt
    exact ⟨u, by simp only [e, Run.ok_bind]; exact e', w.trans w', iu⟩
  · by_cases hn : s.cursor + n ≤ 8 * cap
    · obtain ⟨t, e, w, it⟩ := r1 (by intro cap' hc'; rw [hc] at hc'; cases hc'; exact hn)
      have hct : t.bufCap = some cap := by rw [w.frame]; exact hc
      obtain ⟨u, e', w', hu, hl, iu⟩ := (hq t it).2 cap hct (by rw [w.cursor]; omega)
      refine ⟨u, by simp only [e, Run.ok_bind]; exact e', ?_, hu, hl, iu⟩
      have hk : n + (8 * cap - t.cursor) = 8 * cap - s.cursor := by rw [w.cursor]; omega
      rw [← hk]
      exact w.trans w'
    · obtain ⟨t, e, w, hu, hl, it⟩ := r2 cap hc (by omega)
      refine ⟨t, by simp only [e, Run.raise_bind], w.congr fun i h => ?_, hu, hl, it⟩
      have : i < n := by omega
      simp [this]

/-- One bit (R93). -/
theorem writes_bit (b : Bool) : Writes (writeBit b) 1 (fun _ => b) := by
  intro s hi
  have hcur := hi.cursorInside
  refine ⟨fun room => ?_, fun cap hc hlt => ?_⟩
  · have hcap := (beyondCap_eq_false_iff s).2 room
    have main : ∀ g : State, g = s ∨ (g = appendZero s ∧ s.cursor = 8 * s.len) → g.Inv → s.byteIndex < g.len →
        (∀ a, g.buf.read a = s.buf.read a) → g.len = max s.len ((s.cursor + 1 + 7) / 8) →
        ∃ t, Run.ok () { g with
            buf := g.buf.write s.byteIndex (setBit (g.buf.read s.byteIndex) s.bitIndex b)
            cursor := s.cursor + 1 } = .ok () t ∧ Wrote s t 1 (fun _ => b) ∧ t.Inv := by
      intro g hg ig hidx hread hlen
      refine ⟨_, rfl, ?_, ?_⟩
      · have hb : ∀ p, State.bitAt { g with
            buf := g.buf.write s.byteIndex (setBit (g.buf.read s.byteIndex) s.bitIndex b)
            cursor := s.cursor + 1 } p =
            if s.cursor ≤ p ∧ p < s.cursor + 1 then b else s.bitAt p := by
          intro p
          simp only [State.bitAt]
          rw [Memory.read_write g.buf s.byteIndex (p / 8) _ ig.canonical]
          by_cases hp : p / 8 = s.byteIndex
          · simp only [hp, if_true]
            rw [setBit_getLsbD _ s.bitIndex _ _ (Nat.mod_lt _ (by decide)) (Nat.mod_lt _ (by decide)), hread]
            unfold State.bitIndex
            unfold State.byteIndex at hp
            by_cases hm : p % 8 = s.cursor % 8
            · have : s.cursor ≤ p ∧ p < s.cursor + 1 := by omega
              simp [hm, this]
            · have : ¬ (s.cursor ≤ p ∧ p < s.cursor + 1) := by omega
              simp only [hm, this, if_false]
          · unfold State.byteIndex at hp
            have : ¬ (s.cursor ≤ p ∧ p < s.cursor + 1) := by omega
            simp only [State.byteIndex, hp, this, if_false, hread]
        refine ⟨?_, rfl, hlen, hb, bytes_of_bits fun p hp => by rw [hb p]; simp only [hp, if_false]⟩
        rcases hg with rfl | ⟨rfl, _⟩ <;> rfl
      · refine ⟨Memory.wf_write _ _ _ ig.canonical, Memory.below_write _ _ _ _ hidx ig.within, ?_, ig.lenInCap⟩
        unfold State.byteIndex at hidx
        show s.cursor + 1 ≤ 8 * g.len
        omega
    unfold writeBit
    simp only [hcap, Bool.false_eq_true, if_false]
    rcases growTo_byteIndex s hi with ⟨hlt, hg⟩ | ⟨heq, hc8, hg⟩
    · rw [hg]
      refine main s (.inl rfl) hi hlt (fun _ => rfl) ?_
      unfold State.byteIndex at hlt
      omega
    · rw [hg]
      refine main (appendZero s) (.inr ⟨rfl, hc8⟩) ?_ ?_ (appendZero_read s hi) ?_
      · refine ⟨Memory.wf_write _ _ _ hi.canonical, ?_, ?_, ?_⟩
        · exact Memory.below_write _ _ _ _ (by simp) (Memory.below_mono _ _ _ (by simp) hi.within)
        · simp only [appendZero_cursor, appendZero_len]; omega
        · intro cap hc
          have := room cap hc
          simp only [appendZero_len]
          omega
      · simp only [appendZero_len]; omega
      · simp only [appendZero_len]; omega
  · have hle := Inv.cursor_le_cap hi hc
    have hl := hi.lenInCap cap hc
    have hcap : s.beyondCap s.byteIndex = true := by
      by_contra hne
      have := (beyondCap_eq_false_iff s).1 (by simpa using hne) cap hc
      omega
    refine ⟨s, by simp [writeBit, hcap], ?_, by omega, by omega, hi⟩
    have : 8 * cap - s.cursor = 0 := by omega
    rw [this]
    exact Wrote.refl s hi _

theorem writes_bitsFrom (v : Nat) : ∀ (k i : Nat), Writes (writeBitsFrom v i k) k (fun j => v.testBit (i + j)) := by
  intro k
  induction k with
  | zero => intro i; exact writes_nothing _
  | succ k ih =>
    intro i
    have h := (writes_bit (v.testBit i)).bind (ih (i + 1))
    rw [Nat.add_comm 1 k] at h
    refine Writes.congr (run := writeBitsFrom v i (k + 1)) h fun j hj => ?_
    by_cases h0 : j = 0
    · subst h0; simp
    · have h1 : ¬ j < 1 := by omega
      have h2 : i + 1 + (j - 1) = i + j := by omega
      simp only [h1, if_false, h2]

/-- An unsigned field (R110): bit `i` of the value at position `i` of the field, for the `n` low bits. -/
theorem writes_u (v n : Nat) : Writes (writeU v n) n (fun i => v.testBit i) := by
  have h := writes_bitsFrom v n 0
  exact h.congr fun i _ => by simp

/-- A signed field (R114): the sign, then the magnitude's low bits. -/
theorem writes_s (v : Int) (n : Nat) (hn : 1 ≤ n) : Writes (writeS v n) n (signedFieldBit v) := by
  have h := (writes_bit (signBit v)).bind (writes_u (magnitude v) (n - 1))
  have e : 1 + (n - 1) = n := by omega
  rw [e] at h
  refine Writes.congr (run := writeS v n) h fun i _ => ?_
  unfold signedFieldBit signBit magnitude
  by_cases h0 : i = 0
  · simp [h0]
  · have h1 : ¬ i < 1 := by omega
    simp only [h0, h1, if_false]
    by_cases hv : v < 0
    · have : ¬ 0 ≤ v := by omega
      simp [hv, this]
    · have : 0 ≤ v := by omega
      simp [hv, this]

/-- A command that writes one field and reports nothing (R61). -/
theorem finish_writes {i : Instr} {run : State → Run Unit} {n : Nat} {f : Nat → Bool} (h : Writes run n f)
    (he : ∀ s, exec i s = finish ((run s).bind fun _ t => .ok Result.none t)) (s : State) (hi : s.Inv) :
    WritesField i s n f := by
  obtain ⟨h1, h2⟩ := h s hi
  refine ⟨fun room => ?_, fun cap hc hlt => ?_⟩
  · obtain ⟨u, e, w, _⟩ := h1 room
    exact ⟨u, w, by rw [he, e]; rfl⟩
  · obtain ⟨u, e, w, hu, hl, _⟩ := h2 cap hc hlt
    exact ⟨u, _, w, hu, hl, by rw [he, e]; rfl, takeFault_faulted _ _ _⟩

/-! ### Reading a field -/

/-- A part of a command that reads `n` bits and gives `val`: it moves the cursor and changes nothing else; with fewer bits
left it consumes those and raises OutOfBounds (R176). -/
def Reads {α : Type} (run : State → Run α) (n : Nat) (val : State → α) : Prop :=
  ∀ s : State, s.cursor ≤ 8 * s.len →
    (s.Readable n → run s = .ok (val s) { s with cursor := s.cursor + n }) ∧
    (¬ s.Readable n → run s = .raise .outOfBounds { s with cursor := 8 * s.len })

theorem Reads.congr {α : Type} {run : State → Run α} {n : Nat} {v w : State → α} (h : Reads run n v)
    (e : ∀ s, v s = w s) : Reads run n w := by
  intro s hs
  obtain ⟨h1, h2⟩ := h s hs
  exact ⟨fun hr => by rw [h1 hr, e], h2⟩

theorem reads_nothing {α : Type} (a : α) : Reads (fun s => .ok a s) 0 (fun _ => a) := by
  intro s hs
  refine ⟨fun _ => rfl, fun hn => absurd hs ?_⟩
  simpa [State.Readable] using hn

theorem Reads.bind {α β : Type} {r : State → Run α} {n m : Nat} {v : State → α} {q : α → State → Run β}
    {w : α → State → β} (hr : Reads r n v) (hq : ∀ a, Reads (q a) m (w a)) :
    Reads (fun s => (r s).bind q) (n + m) (fun s => w (v s) { s with cursor := s.cursor + n }) := by
  intro s hs
  obtain ⟨r1, r2⟩ := hr s hs
  by_cases hn : s.Readable n
  · have e := r1 hn
    obtain ⟨q1, q2⟩ := hq (v s) { s with cursor := s.cursor + n } hn
    refine ⟨fun h => ?_, fun h => ?_⟩
    · simp only [e, Run.ok_bind]
      rw [q1 (by simp only [State.Readable] at h ⊢; omega)]
      simp [Nat.add_assoc]
    · simp only [e, Run.ok_bind]
      rw [q2 (by simp only [State.Readable] at h ⊢; omega)]
  · refine ⟨fun h => absurd h ?_, fun _ => ?_⟩
    · simp only [State.Readable] at hn ⊢; omega
    · simp only [r2 hn, Run.raise_bind]

/-- One bit (R94). -/
theorem reads_bit : Reads readBit 1 (fun s => s.bitAt s.cursor) := by
  intro s hs
  refine ⟨fun h => ?_, fun h => ?_⟩
  · have : ¬ s.len ≤ s.byteIndex := by unfold State.byteIndex; unfold State.Readable at h; omega
    simp only [readBit, this, if_false]
    rfl
  · have h1 : s.len ≤ s.byteIndex := by unfold State.byteIndex; unfold State.Readable at h; omega
    have h2 : 8 * s.len = s.cursor := by unfold State.Readable at h; omega
    simp only [readBit, h1, if_true, h2]

/-- A field by its first bit and the rest (R71). -/
theorem fieldAt_succ (s : State) (p k : Nat) :
    s.fieldAt p (k + 1) = (s.bitAt p).toNat + 2 * s.fieldAt (p + 1) k := by
  unfold State.fieldAt
  rw [Finset.sum_range_succ', Finset.mul_sum, Nat.add_comm]
  refine congrArg₂ (· + ·) (by simp) (Finset.sum_congr rfl fun x _ => ?_)
  rw [show p + (x + 1) = p + 1 + x by omega, pow_succ]
  ring

theorem reads_bitsFrom : ∀ (k i u : Nat), Reads (readBitsFrom u i k) k
    (fun s => u + 2 ^ i * s.fieldAt s.cursor k) := by
  intro k
  induction k with
  | zero => intro i u; exact (reads_nothing u).congr fun s => by simp [State.fieldAt]
  | succ k ih =>
    intro i u
    have h := reads_bit.bind (fun b => ih (i + 1) (u + b.toNat * 2 ^ i))
    rw [Nat.add_comm 1 k] at h
    refine Reads.congr (run := readBitsFrom u i (k + 1)) h fun s => ?_
    show u + (s.bitAt s.cursor).toNat * 2 ^ i + 2 ^ (i + 1) * s.fieldAt (s.cursor + 1) k = _
    rw [fieldAt_succ, pow_succ]
    ring

/-- An unsigned field (R112): the sum of `bit_i × 2^i`. -/
theorem reads_u (n : Nat) : Reads (readU n) n (fun s => s.fieldAt s.cursor n) :=
  (reads_bitsFrom n 0 0).congr fun s => by simp

/-- A signed field (R116). -/
theorem reads_s (n : Nat) (hn : 1 ≤ n) : Reads (readS n) n (fun s => s.signedFieldAt s.cursor n) := by
  have h := reads_bit.bind (fun sign => (reads_u (n - 1)).bind (fun m => reads_nothing (signedOf sign m)))
  have e : 1 + (n - 1 + 0) = n := by omega
  rw [e] at h
  refine Reads.congr (run := readS n) h fun s => ?_
  rfl

/-- A command that reads one field of the stream (R61). -/
theorem finish_reads {α : Type} {i : Instr} {run : State → Run α} {n : Nat} {val : State → α} {port : α → Val}
    (h : Reads run n val)
    (he : ∀ s, exec i s = finish ((run s).bind fun a t => .ok { value := port a, out := [] } t))
    (s : State) (hs : s.cursor ≤ 8 * s.len) : ReadsField i s n (port (val s)) := by
  obtain ⟨h1, h2⟩ := h s hs
  refine ⟨fun hr => ?_, fun hr => ?_⟩
  · rw [he, h1 hr]; rfl
  · exact ⟨_, by rw [he, h2 hr]; rfl, takeFault_faulted _ _ _⟩

end Sys2Proof.Machine
end

