-- ==== Sys2Proof/Laws/Packers.lean ====
section
/-! SUPPORT. What the parts of the float and string commands do (spec/42_float_packer.md, spec/43_string_packer.md), as
fields written and read. -/

namespace Sys2Proof.Machine

/-- A float field written (R73, R74): sign, exponent, fraction. -/
theorem writes_floatField (f : FloatFmt) (he : 1 ≤ f.eb) (sign : Bool) (e : Int) (n : Nat) :
    Writes (writeFloatField f sign e n) (1 + f.eb + f.fb) (floatFieldBit f.eb sign e n) := by
  have h := (writes_bit sign).bind ((writes_s e f.eb he).bind (writes_u n f.fb))
  rw [← Nat.add_assoc] at h
  refine Writes.congr (run := writeFloatField f sign e n) h fun i _ => ?_
  unfold floatFieldBit
  by_cases h0 : i = 0
  · simp [h0]
  · have h1 : ¬ i < 1 := by omega
    by_cases h2 : i ≤ f.eb
    · have h3 : i - 1 < f.eb := by omega
      simp only [h0, h1, h2, h3, if_true, if_false]
    · have h3 : ¬ i - 1 < f.eb := by omega
      simp only [h0, h1, h2, h3, if_false]

theorem writes_addFloating_zero (f : FloatFmt) (he : 1 ≤ f.eb) (p : Nat) (hu : f.unsupported p = false)
    (hz : f.isZero p = true) : Writes (addFloating f p) (1 + f.eb + f.fb) (fun _ => false) := by
  have h := writes_floatField f he false 0 0
  have e : addFloating f p = writeFloatField f false 0 0 := by
    funext s; simp [addFloating, hu, hz]
  rw [e]
  refine h.congr fun i _ => ?_
  simp [floatFieldBit, signedFieldBit]

theorem writes_addFloating (f : FloatFmt) (he : 1 ≤ f.eb) (p : Nat) (hu : f.unsupported p = false)
    (hz : f.isZero p = false) : Writes (addFloating f p) (1 + f.eb + f.fb)
      (floatFieldBit f.eb (f.signOf p) (f.decomp p).1 (f.decomp p).2) := by
  have e : addFloating f p = writeFloatField f (f.signOf p) (f.decomp p).1 (f.decomp p).2 := by
    funext s; simp [addFloating, hu, hz]
  rw [e]
  exact writes_floatField f he _ _ _

/-- A float field read (R137, R145). -/
theorem reads_floating (f : FloatFmt) (he : 1 ≤ f.eb) : Reads (readFloating f) (1 + f.eb + f.fb)
    (fun s => f.valueOf (s.bitAt s.cursor) (s.signedFieldAt (s.cursor + 1) f.eb)
      (s.fieldAt (s.cursor + 1 + f.eb) f.fb)) := by
  have h := reads_bit.bind (fun sign => (reads_s f.eb he).bind (fun e => (reads_u f.fb).bind
    (fun n => reads_nothing (f.valueOf sign e n))))
  have e : 1 + (f.eb + (f.fb + 0)) = 1 + f.eb + f.fb := by omega
  rw [e] at h
  exact Reads.congr (run := readFloating f) h fun s => rfl

theorem stringFieldBit_cons (c : Byte) (rest : List Byte) (i : Nat) :
    stringFieldBit (c :: rest) i = if i < 8 then c.getLsbD i else stringFieldBit rest (i - 8) := by
  unfold stringFieldBit
  by_cases h : i < 8
  · have h1 : i / 8 = 0 := by omega
    have h2 : i % 8 = i := by omega
    simp [h, h1, h2]
  · have h1 : i / 8 = (i - 8) / 8 + 1 := by omega
    have h2 : i % 8 = (i - 8) % 8 := by omega
    simp [h, h1, h2]

/-- The characters and the terminator written (R160). -/
theorem writes_string (chars : List Byte) :
    Writes (fun s => (writeChars chars s).bind fun _ t => writeU 0 8 t) (8 * (chars.length + 1))
      (stringFieldBit chars) := by
  induction chars with
  | nil =>
    have h := writes_u 0 8
    refine Writes.congr (run := fun s => (writeChars [] s).bind fun _ t => writeU 0 8 t) h fun i _ => ?_
    simp [stringFieldBit]
  | cons c rest ih =>
    have h := (writes_u c.toNat 8).bind ih
    have e : 8 + 8 * (rest.length + 1) = 8 * ((c :: rest).length + 1) := by simp; omega
    rw [e] at h
    have er : (fun s => (writeChars (c :: rest) s).bind fun _ t => writeU 0 8 t) =
        fun s => (writeU c.toNat 8 s).bind fun _ t => (writeChars rest t).bind fun _ u => writeU 0 8 u := by
      funext s
      simp only [writeChars, Run.bind_assoc]
    rw [er]
    refine h.congr fun i hi => ?_
    rw [stringFieldBit_cons]
    rfl

/-- A field of bits is below the power of its width. -/
theorem fieldAt_lt (s : State) : ∀ (n p : Nat), s.fieldAt p n < 2 ^ n := by
  intro n
  induction n with
  | zero => intro p; simp [State.fieldAt]
  | succ n ih =>
    intro p
    rw [fieldAt_succ, pow_succ]
    have := ih (p + 1)
    have : (s.bitAt p).toNat ≤ 1 := by cases s.bitAt p <;> decide
    omega

/-- The value of a field is the number whose bits it holds. -/
theorem testBit_fieldAt (s : State) : ∀ (n p i : Nat), (s.fieldAt p n).testBit i = (decide (i < n) && s.bitAt (p + i)) := by
  intro n
  induction n with
  | zero => intro p i; simp [State.fieldAt]
  | succ n ih =>
    intro p i
    rw [fieldAt_succ]
    cases i with
    | zero =>
      rw [Nat.testBit_zero]
      cases s.bitAt p <;> simp
    | succ i =>
      rw [Nat.testBit_succ]
      have : ((s.bitAt p).toNat + 2 * s.fieldAt (p + 1) n) / 2 = s.fieldAt (p + 1) n := by
        have : (s.bitAt p).toNat ≤ 1 := by cases s.bitAt p <;> decide
        omega
      rw [this, ih, show p + 1 + i = p + (i + 1) by omega]
      simp

/-- The field a value's bits were written into holds the value's low bits. -/
theorem fieldAt_eq_mod (s : State) (p n v : Nat) (h : ∀ i, i < n → s.bitAt (p + i) = v.testBit i) :
    s.fieldAt p n = v % 2 ^ n := by
  refine Nat.eq_of_testBit_eq fun i => ?_
  rw [testBit_fieldAt, Nat.testBit_mod_two_pow]
  by_cases hi : i < n
  · simp [hi, h i hi]
  · simp [hi]

/-- One turn of readString's loop (R161). -/
theorem readChars_succ (fuel : Nat) (acc : List Byte) (s : State) :
    readChars (fuel + 1) acc s = (readU 8 s).bind fun c t =>
      if c = 0 then .ok acc t
      else if t.len ≤ t.byteIndex then .ok (acc ++ [BitVec.ofNat 8 c]) t
      else readChars fuel (acc ++ [BitVec.ofNat 8 c]) t := rfl

end Sys2Proof.Machine
end

