-- ==== Sys2Proof/Laws/Parts.lean ====
section
/-! SUPPORT. What every part of a command may do, in every state: move the cursor forward, grow the buffer, raise the one
fault of its kind, and never look at the flags. And the inversion of `exec`: how every command ends. -/

namespace Sys2Proof.Machine

/-- The same state with other flags. -/
def State.withErr (s : State) (e : BitVec 5) : State := { s with err := e }

@[simp] theorem withErr_buf (s : State) (e : BitVec 5) : (s.withErr e).buf = s.buf := rfl
@[simp] theorem withErr_len (s : State) (e : BitVec 5) : (s.withErr e).len = s.len := rfl
@[simp] theorem withErr_cursor (s : State) (e : BitVec 5) : (s.withErr e).cursor = s.cursor := rfl
@[simp] theorem withErr_err (s : State) (e : BitVec 5) : (s.withErr e).err = e := rfl
@[simp] theorem withErr_bufCap (s : State) (e : BitVec 5) : (s.withErr e).bufCap = s.bufCap := rfl
@[simp] theorem withErr_responses (s : State) (e : BitVec 5) : (s.withErr e).responses = s.responses := rfl
@[simp] theorem withErr_freeCount (s : State) (e : BitVec 5) : (s.withErr e).freeCount = s.freeCount := rfl

/-- A part's end with other flags. -/
def Run.withErr {α : Type} (r : Run α) (e : BitVec 5) : Run α :=
  match r with
  | .ok a s => .ok a (s.withErr e)
  | .raise c s => .raise c (s.withErr e)

/-- The bounds of a part that may raise `c` only: what it leaves alone, that it moves forward only, that BufferFull needs a
finite capacity, and that it does not look at the flags. -/
structure Part {α : Type} (run : State → Run α) (c : FaultCode) : Prop where
  frame : ∀ s, (run s).state =
    { s with buf := (run s).state.buf, len := (run s).state.len, cursor := (run s).state.cursor }
  cursor : ∀ s, s.cursor ≤ (run s).state.cursor
  len : ∀ s, s.len ≤ (run s).state.len
  code : ∀ s d t, run s = .raise d t → d = c ∧ (c = .bufferFull → s.bufCap ≠ none)
  flags : ∀ s e, run (s.withErr e) = (run s).withErr e

theorem part_ok {α : Type} (a : α) (c : FaultCode) : Part (fun s => .ok a s) c where
  frame _ := rfl
  cursor _ := Nat.le_refl _
  len _ := Nat.le_refl _
  code _ _ _ h := by cases h
  flags _ _ := rfl

theorem Part.bind {α β : Type} {r : State → Run α} {q : α → State → Run β} {c : FaultCode} (hr : Part r c)
    (hq : ∀ a, Part (q a) c) : Part (fun s => (r s).bind q) c where
  frame s := by
    have h := hr.frame s
    cases hrs : r s with
    | ok a t =>
      rw [hrs] at h
      simp only [Run.ok_bind, Run.state_ok] at h ⊢
      have hq' := (hq a).frame t
      rw [hq', h]
    | raise d t => rw [hrs] at h; exact h
  cursor s := by
    have h := hr.cursor s
    cases hrs : r s with
    | ok a t =>
      rw [hrs] at h
      exact Nat.le_trans h ((hq a).cursor t)
    | raise d t => rw [hrs] at h; exact h
  len s := by
    have h := hr.len s
    cases hrs : r s with
    | ok a t =>
      rw [hrs] at h
      exact Nat.le_trans h ((hq a).len t)
    | raise d t => rw [hrs] at h; exact h
  code s d t h := by
    have hf := hr.frame s
    cases hrs : r s with
    | ok a u =>
      rw [hrs] at h hf
      obtain ⟨h1, h2⟩ := (hq a).code u d t h
      have hb : u.bufCap = s.bufCap := by rw [show u = _ from hf]
      exact ⟨h1, fun hc => hb ▸ h2 hc⟩
    | raise d' u =>
      rw [hrs] at h
      simp only [Run.raise_bind, Run.raise.injEq] at h
      obtain ⟨rfl, rfl⟩ := h
      exact hr.code s _ _ hrs
  flags s e := by
    simp only [hr.flags s e]
    cases r s with
    | ok a t => exact (hq a).flags t e
    | raise d t => rfl

theorem appendZeros_frame : ∀ (k : Nat) (s : State), appendZeros k s =
    { s with buf := (appendZeros k s).buf, len := s.len + k } := by
  intro k
  induction k with
  | zero => intro s; rfl
  | succ k ih =>
    intro s
    simp only [appendZeros]
    rw [ih (appendZero s)]
    simp only [appendZero, Nat.add_assoc, Nat.add_comm 1 k]

theorem appendZeros_withErr : ∀ (k : Nat) (s : State) (e : BitVec 5),
    appendZeros k (s.withErr e) = (appendZeros k s).withErr e := by
  intro k
  induction k with
  | zero => intros; rfl
  | succ k ih => intro s e; exact ih (appendZero s) e

theorem part_writeBit (b : Bool) : Part (writeBit b) .bufferFull where
  frame s := by
    unfold writeBit
    split
    · rfl
    · simp only [Run.state_ok, growTo]; rw [appendZeros_frame]
  cursor s := by
    unfold writeBit
    split
    · exact Nat.le_refl _
    · simp
  len s := by
    unfold writeBit
    split
    · exact Nat.le_refl _
    · simp only [Run.state_ok, growTo]; rw [appendZeros_frame]; simp
  code s d t h := by
    unfold writeBit at h
    split at h
    · rename_i hc
      cases h
      refine ⟨rfl, fun _ hn => ?_⟩
      simp [State.beyondCap, hn] at hc
    · cases h
  flags s e := by
    have h1 : (s.withErr e).beyondCap (s.withErr e).byteIndex = s.beyondCap s.byteIndex := rfl
    unfold writeBit
    rw [h1]
    split
    · rfl
    · simp only [growTo, withErr_len]
      rw [appendZeros_withErr]
      rfl

theorem part_readBit : Part readBit .outOfBounds where
  frame s := by unfold readBit; split <;> rfl
  cursor s := by unfold readBit; split <;> simp
  len s := by unfold readBit; split <;> simp
  code s d t h := by
    unfold readBit at h
    split at h
    · cases h; exact ⟨rfl, fun h => by cases h⟩
    · cases h
  flags s e := by
    have h1 : (s.withErr e).byteIndex = s.byteIndex := rfl
    unfold readBit
    rw [h1, withErr_len]
    split <;> rfl

theorem part_writeBitsFrom (v : Nat) : ∀ (k i : Nat), Part (writeBitsFrom v i k) .bufferFull := by
  intro k
  induction k with
  | zero => intro i; exact part_ok () _
  | succ k ih => intro i; exact (part_writeBit _).bind fun _ => ih (i + 1)

theorem part_writeU (v n : Nat) : Part (writeU v n) .bufferFull := part_writeBitsFrom v n 0

theorem part_writeS (v : Int) (n : Nat) : Part (writeS v n) .bufferFull :=
  (part_writeBit _).bind fun _ => part_writeU _ _

theorem part_readBitsFrom : ∀ (k i u : Nat), Part (readBitsFrom u i k) .outOfBounds := by
  intro k
  induction k with
  | zero => intro i u; exact part_ok u _
  | succ k ih => intro i u; exact part_readBit.bind fun _ => ih (i + 1) _

theorem part_readU (n : Nat) : Part (readU n) .outOfBounds := part_readBitsFrom n 0 0

theorem part_readS (n : Nat) : Part (readS n) .outOfBounds :=
  part_readBit.bind fun _ => (part_readU _).bind fun _ => part_ok _ _

theorem part_writeFloatField (f : FloatFmt) (sign : Bool) (e : Int) (n : Nat) :
    Part (writeFloatField f sign e n) .bufferFull :=
  (part_writeBit _).bind fun _ => (part_writeS _ _).bind fun _ => part_writeU _ _

theorem part_readFloating (f : FloatFmt) : Part (readFloating f) .outOfBounds :=
  part_readBit.bind fun _ => (part_readS _).bind fun _ => (part_readU _).bind fun _ => part_ok _ _

theorem part_writeChars : ∀ chars : List Byte, Part (writeChars chars) .bufferFull := by
  intro chars
  induction chars with
  | nil => exact part_ok () _
  | cons c rest ih => exact (part_writeU _ _).bind fun _ => ih

theorem part_ite {α : Type} {r q : State → Run α} {c : FaultCode} {p : State → Prop} [DecidablePred p] (hr : Part r c)
    (hq : Part q c) (hp : ∀ s e, p (s.withErr e) ↔ p s) : Part (fun s => if p s then r s else q s) c where
  frame s := by split; exacts [hr.frame s, hq.frame s]
  cursor s := by split; exacts [hr.cursor s, hq.cursor s]
  len s := by split; exacts [hr.len s, hq.len s]
  code s d t h := by
    split at h
    · exact hr.code s d t h
    · exact hq.code s d t h
  flags s e := by
    by_cases h : p s
    · rw [if_pos h, if_pos ((hp s e).2 h)]; exact hr.flags s e
    · rw [if_neg h, if_neg (fun h' => h ((hp s e).1 h'))]; exact hq.flags s e

theorem part_readChars : ∀ (fuel : Nat) (acc : List Byte), Part (readChars fuel acc) .outOfBounds := by
  intro fuel
  induction fuel with
  | zero => intro acc; exact part_ok acc _
  | succ fuel ih =>
    intro acc
    refine (part_readU 8).bind fun c => ?_
    by_cases h : c = 0
    · simp only [h, if_true]; exact part_ok acc _
    · simp only [h, if_false]
      exact part_ite (p := fun t => t.len ≤ t.byteIndex) (part_ok _ _) (ih _) (fun _ _ => Iff.rfl)

/-- How a command that is no construction ends: its parts lead from `s` to `u`, changing `buf`, `len` and `cursor` only and
the last two upwards only; then it answers with status 0, or takes a fault; and from other flags it ends the same way. -/
structure Ends (i : Instr) (s u t : State) : Prop where
  frame : u = { s with buf := u.buf, len := u.len, cursor := u.cursor }
  cursor : s.cursor ≤ u.cursor
  len : s.len ≤ u.len
  answer : (∃ v out, t = answered u v out) ∨
    (∃ c out, t = takeFault c out u ∧ (c = .bufferFull → s.bufCap ≠ none))
  flags : ∀ e, ∃ t', exec i (s.withErr e) = .next t' ∧
    ((∃ v out, t = answered u v out ∧ t' = answered (u.withErr e) v out) ∨
      (∃ c out, t = takeFault c out u ∧ t' = takeFault c out (u.withErr e)))

theorem ends_of_part {α : Type} {i : Instr} {run : State → Run α} {c : FaultCode} {port : α → Result}
    (h : Part run c) (he : ∀ s, exec i s = finish ((run s).bind fun a t => .ok (port a) t))
    (s t : State) (ht : exec i s = .next t) : ∃ u, Ends i s u t := by
  have hf := h.frame s
  have hc := h.cursor s
  have hl := h.len s
  rw [he] at ht
  cases hr : run s with
  | ok a u =>
    rw [hr] at ht hf hc hl
    simp only [Run.ok_bind, finish_ok, Host.Outcome.next.injEq] at ht
    refine ⟨u, hf, hc, hl, .inl ⟨_, _, ht.symm⟩, fun e => ⟨_, ?_, .inl ⟨_, _, ht.symm, rfl⟩⟩⟩
    rw [he, h.flags s e, hr]; rfl
  | raise d u =>
    rw [hr] at ht hf hc hl
    simp only [Run.raise_bind, finish_raise, Host.Outcome.next.injEq] at ht
    obtain ⟨h1, h2⟩ := h.code s d u hr
    refine ⟨u, hf, hc, hl, .inr ⟨d, [], ht.symm, fun hd => h2 (h1 ▸ hd)⟩, fun e =>
      ⟨_, ?_, .inr ⟨d, [], ht.symm, rfl⟩⟩⟩
    rw [he, h.flags s e, hr]; rfl

theorem ends_at_once {i : Instr} {c : FaultCode} (hb : c ≠ .bufferFull) (s t : State)
    (ht : exec i s = .next t) (he : ∀ s, exec i s = finish (.raise c s)) : ∃ u, Ends i s u t := by
  rw [he] at ht
  simp only [finish_raise, Host.Outcome.next.injEq] at ht
  exact ⟨s, rfl, Nat.le_refl _, Nat.le_refl _, .inr ⟨c, [], ht.symm, fun h => absurd h hb⟩, fun e =>
    ⟨_, he _, .inr ⟨c, [], ht.symm, rfl⟩⟩⟩

theorem exec_addUint_legal (v : Val) (w : Width) (h : widthLegal 1 w = true) (s : State) :
    exec (.addUint v w) s = finish ((writeU v.toNat w.toNat s).bind fun _ t => .ok Result.none t) := by
  simp [exec, execAddUint, checkWidth, h]

theorem exec_addUint_illegal (v : Val) (w : Width) (h : widthLegal 1 w = false) (s : State) :
    exec (.addUint v w) s = finish (.raise .illegalWidth s) := by
  simp [exec, execAddUint, checkWidth, h]

theorem exec_readUint_legal (w : Width) (h : widthLegal 1 w = true) (s : State) :
    exec (.readUint w) s = finish ((readU w.toNat s).bind fun v t => .ok { value := zext64 v, out := [] } t) := by
  simp [exec, execReadUint, checkWidth, h]

theorem exec_readUint_illegal (w : Width) (h : widthLegal 1 w = false) (s : State) :
    exec (.readUint w) s = finish (.raise .illegalWidth s) := by
  simp [exec, execReadUint, checkWidth, h]

theorem exec_addInt_legal (v : Val) (w : Width) (h : widthLegal 2 w = true) (s : State) :
    exec (.addInt v w) s = finish ((writeS (signed64 v) w.toNat s).bind fun _ t => .ok Result.none t) := by
  simp [exec, execAddInt, checkWidth, h]

theorem exec_addInt_illegal (v : Val) (w : Width) (h : widthLegal 2 w = false) (s : State) :
    exec (.addInt v w) s = finish (.raise .illegalWidth s) := by
  simp [exec, execAddInt, checkWidth, h]

theorem exec_readInt_legal (w : Width) (h : widthLegal 2 w = true) (s : State) :
    exec (.readInt w) s = finish ((readS w.toNat s).bind fun v t => .ok { value := sext64 v, out := [] } t) := by
  simp [exec, execReadInt, checkWidth, h]

theorem exec_readInt_illegal (w : Width) (h : widthLegal 2 w = false) (s : State) :
    exec (.readInt w) s = finish (.raise .illegalWidth s) := by
  simp [exec, execReadInt, checkWidth, h]

theorem exec_addFloat_supported (p : BitVec 32) (h : float32.unsupported p.toNat = false) :
    Part (addFloating float32 p.toNat) .bufferFull := by
  by_cases hz : float32.isZero p.toNat = true
  · rw [show addFloating float32 p.toNat = writeFloatField float32 false 0 0 by funext s; simp [addFloating, h, hz]]
    exact part_writeFloatField _ _ _ _
  · rw [show addFloating float32 p.toNat = writeFloatField float32 _ _ _ by funext s; simp [addFloating, h, hz]; rfl]
    exact part_writeFloatField _ _ _ _

theorem exec_addDouble_supported (p : BitVec 64) (h : float64.unsupported p.toNat = false) :
    Part (addFloating float64 p.toNat) .bufferFull := by
  by_cases hz : float64.isZero p.toNat = true
  · rw [show addFloating float64 p.toNat = writeFloatField float64 false 0 0 by funext s; simp [addFloating, h, hz]]
    exact part_writeFloatField _ _ _ _
  · rw [show addFloating float64 p.toNat = writeFloatField float64 _ _ _ by funext s; simp [addFloating, h, hz]; rfl]
    exact part_writeFloatField _ _ _ _

theorem exec_addFloat_unsupported (p : BitVec 32) (h : float32.unsupported p.toNat = true) (s : State) :
    exec (.addFloat p) s = finish (.raise .unsupportedFloat s) := by
  simp [exec, execAddFloat, addFloating, h]

theorem exec_addDouble_unsupported (p : BitVec 64) (h : float64.unsupported p.toNat = true) (s : State) :
    exec (.addDouble p) s = finish (.raise .unsupportedFloat s) := by
  simp [exec, execAddDouble, addFloating, h]

theorem exec_addString (chars : List Byte) (s : State) : exec (.addString chars) s =
    finish (((writeChars chars s).bind fun _ t => writeU 0 8 t).bind fun _ u => .ok Result.none u) := by
  rw [Run.bind_assoc]; rfl

/-- The inversion of `exec` for the commands that make no new codec. -/
theorem exec_ends (i : Instr) (s t : State) (hc : isConstruction i = false) (ht : exec i s = .next t) :
    ∃ u, Ends i s u t := by
  cases i with
  | init => simp [isConstruction] at hc
  | load payload => simp [isConstruction] at hc
  | addBit b => exact ends_of_part (part_writeBit b) (fun _ => rfl) s t ht
  | readBit =>
    exact ends_of_part (port := fun b => ⟨zext64 b.toNat, []⟩) part_readBit (fun _ => rfl) s t ht
  | addUint v w =>
    cases h : widthLegal 1 w
    · exact ends_at_once (c := .illegalWidth) (by decide) s t ht (exec_addUint_illegal v w h)
    · exact ends_of_part (part_writeU _ _) (exec_addUint_legal v w h) s t ht
  | readUint w =>
    cases h : widthLegal 1 w
    · exact ends_at_once (c := .illegalWidth) (by decide) s t ht (exec_readUint_illegal w h)
    · exact ends_of_part (part_readU _) (exec_readUint_legal w h) s t ht
  | addInt v w =>
    cases h : widthLegal 2 w
    · exact ends_at_once (c := .illegalWidth) (by decide) s t ht (exec_addInt_illegal v w h)
    · exact ends_of_part (part_writeS _ _) (exec_addInt_legal v w h) s t ht
  | readInt w =>
    cases h : widthLegal 2 w
    · exact ends_at_once (c := .illegalWidth) (by decide) s t ht (exec_readInt_illegal w h)
    · exact ends_of_part (part_readS _) (exec_readInt_legal w h) s t ht
  | addFloat p =>
    cases h : float32.unsupported p.toNat
    · exact ends_of_part (exec_addFloat_supported p h) (fun _ => rfl) s t ht
    · exact ends_at_once (c := .unsupportedFloat) (by decide) s t ht (exec_addFloat_unsupported p h)
  | readFloat =>
    exact ends_of_part (port := fun v => ⟨zext64 v, []⟩) (part_readFloating float32) (fun _ => rfl) s t ht
  | addDouble p =>
    cases h : float64.unsupported p.toNat
    · exact ends_of_part (exec_addDouble_supported p h) (fun _ => rfl) s t ht
    · exact ends_at_once (c := .unsupportedFloat) (by decide) s t ht (exec_addDouble_unsupported p h)
  | readDouble =>
    exact ends_of_part (port := fun v => ⟨zext64 v, []⟩) (part_readFloating float64) (fun _ => rfl) s t ht
  | addString chars =>
    exact ends_of_part ((part_writeChars chars).bind fun _ => part_writeU 0 8) (exec_addString chars) s t ht
  | readString =>
    have h := part_readChars (s.len + 1) []
    have hf := h.frame s
    have hcu := h.cursor s
    have hl := h.len s
    simp only [exec, execReadString] at ht
    cases hr : readChars (s.len + 1) [] s with
    | ok a u =>
      rw [hr] at ht hf hcu hl
      simp only [Run.ok_bind, finishPayload_ok, Host.Outcome.next.injEq] at ht
      refine ⟨u, hf, hcu, hl, .inl ⟨_, _, ht.symm⟩, fun e => ⟨_, ?_, .inl ⟨_, _, ht.symm, rfl⟩⟩⟩
      show execReadString (s.withErr e) = _
      simp only [execReadString, withErr_len, h.flags s e, hr]; rfl
    | raise d u =>
      rw [hr] at ht hf hcu hl
      simp only [Run.raise_bind, finishPayload_raise, Host.Outcome.next.injEq] at ht
      obtain ⟨h1, _⟩ := h.code s d u hr
      refine ⟨u, hf, hcu, hl, .inr ⟨d, _, ht.symm, fun hd => by rw [h1] at hd; cases hd⟩, fun e =>
        ⟨_, ?_, .inr ⟨d, _, ht.symm, rfl⟩⟩⟩
      show execReadString (s.withErr e) = _
      simp only [execReadString, withErr_len, h.flags s e, hr]; rfl
  | getBuf =>
    simp only [exec, execGetBuf, finish_ok, Host.Outcome.next.injEq] at ht
    exact ⟨s, rfl, Nat.le_refl _, Nat.le_refl _, .inl ⟨_, _, ht.symm⟩, fun e => ⟨_, rfl, .inl ⟨_, _, ht.symm, rfl⟩⟩⟩

end Sys2Proof.Machine
end

