-- ==== Sys2Proof/Laws/Commands.lean ====
section
/-! SUPPORT. Each kind of command in one lemma: a write command is a field written, a read command moves the cursor only. -/

namespace Sys2Proof.Machine

/-- A write command whose check passes writes one field. -/
theorem exec_write (i : Instr) (hw : isWrite i = true) (hp : checksPass i = true) :
    ∃ (run : State → Run Unit) (n : Nat) (f : Nat → Bool), 1 ≤ n ∧ Writes run n f ∧
      ∀ s, exec i s = finish ((run s).bind fun _ t => .ok Result.none t) := by
  cases i with
  | addBit b => exact ⟨_, _, _, Nat.le_refl _, writes_bit b, fun _ => rfl⟩
  | addUint v w =>
    have hl : widthLegal 1 w = true := hp
    have : 1 ≤ w.toNat := by simp [widthLegal] at hl; exact hl.1
    exact ⟨_, _, _, this, writes_u v.toNat w.toNat, exec_addUint_legal v w hl⟩
  | addInt v w =>
    have hl : widthLegal 2 w = true := hp
    have : 1 ≤ w.toNat := by simp [widthLegal] at hl; omega
    exact ⟨_, _, _, this, writes_s (signed64 v) w.toNat this, exec_addInt_legal v w hl⟩
  | addFloat p =>
    have hu : float32.unsupported p.toNat = false := by simpa [checksPass] using hp
    cases hz : float32.isZero p.toNat
    · exact ⟨_, _, _, by decide, writes_addFloating float32 (by decide) _ hu hz, fun _ => rfl⟩
    · exact ⟨_, _, _, by decide, writes_addFloating_zero float32 (by decide) _ hu hz, fun _ => rfl⟩
  | addDouble p =>
    have hu : float64.unsupported p.toNat = false := by simpa [checksPass] using hp
    cases hz : float64.isZero p.toNat
    · exact ⟨_, _, _, by decide, writes_addFloating float64 (by decide) _ hu hz, fun _ => rfl⟩
    · exact ⟨_, _, _, by decide, writes_addFloating_zero float64 (by decide) _ hu hz, fun _ => rfl⟩
  | addString chars =>
    exact ⟨_, _, _, by omega, writes_string chars, exec_addString chars⟩
  | init | load _ | readBit | readUint _ | readInt _ | readFloat | readDouble | readString | getBuf =>
    simp [isWrite] at hw

/-- A write command whose check fails takes its fault before any change. -/
theorem exec_write_unchecked (i : Instr) (hw : isWrite i = true) (hp : checksPass i = false) (s : State) :
    ∃ c, exec i s = .next (takeFault c [] s) := by
  cases i with
  | addUint v w => exact ⟨_, exec_addUint_illegal v w hp s⟩
  | addInt v w => exact ⟨_, exec_addInt_illegal v w hp s⟩
  | addFloat p => exact ⟨_, exec_addFloat_unsupported p (by simpa [checksPass] using hp) s⟩
  | addDouble p => exact ⟨_, exec_addDouble_unsupported p (by simpa [checksPass] using hp) s⟩
  | addBit _ | addString _ => simp [checksPass] at hp
  | init | load _ | readBit | readUint _ | readInt _ | readFloat | readDouble | readString | getBuf =>
    simp [isWrite] at hw

/-- A part that moves the cursor only, and stays inside the buffer. -/
def OnlyCursor {α : Type} (run : State → Run α) : Prop :=
  ∀ s, (run s).state = { s with cursor := (run s).state.cursor } ∧
    (s.cursor ≤ 8 * s.len → (run s).state.cursor ≤ 8 * s.len)

theorem onlyCursor_ok {α : Type} (a : α) : OnlyCursor (fun s => .ok a s) := fun _ => ⟨rfl, id⟩

theorem OnlyCursor.bind {α β : Type} {r : State → Run α} {q : α → State → Run β} (hr : OnlyCursor r)
    (hq : ∀ a, OnlyCursor (q a)) : OnlyCursor (fun s => (r s).bind q) := by
  intro s
  have h := hr s
  cases hrs : r s with
  | ok a t =>
    rw [hrs] at h
    simp only [Run.ok_bind, Run.state_ok, hrs] at h ⊢
    obtain ⟨h1, h2⟩ := hq a t
    refine ⟨?_, fun hs => ?_⟩
    · rw [h1, h.1]
    · have hl : t.len = s.len := by rw [h.1]
      have := h2 (by rw [hl]; exact h.2 hs)
      rwa [hl] at this
  | raise d t =>
    rw [hrs] at h
    simp only [Run.raise_bind, Run.state_raise, hrs] at h ⊢
    exact h

theorem onlyCursor_readBit : OnlyCursor readBit := by
  intro s
  unfold readBit
  split
  · exact ⟨rfl, id⟩
  · rename_i h
    unfold State.byteIndex at h
    exact ⟨rfl, fun _ => by simp only [Run.state_ok]; omega⟩

theorem onlyCursor_readU (n : Nat) : OnlyCursor (readU n) := by
  have : ∀ (k i u : Nat), OnlyCursor (readBitsFrom u i k) := by
    intro k
    induction k with
    | zero => intro i u; exact onlyCursor_ok u
    | succ k ih => intro i u; exact onlyCursor_readBit.bind fun _ => ih (i + 1) _
  exact this n 0 0

theorem onlyCursor_readS (n : Nat) : OnlyCursor (readS n) :=
  onlyCursor_readBit.bind fun _ => (onlyCursor_readU _).bind fun _ => onlyCursor_ok _

theorem onlyCursor_readFloating (f : FloatFmt) : OnlyCursor (readFloating f) :=
  onlyCursor_readBit.bind fun _ => (onlyCursor_readS _).bind fun _ => (onlyCursor_readU _).bind fun _ => onlyCursor_ok _

theorem onlyCursor_readChars : ∀ (fuel : Nat) (acc : List Byte), OnlyCursor (readChars fuel acc) := by
  intro fuel
  induction fuel with
  | zero => intro acc; exact onlyCursor_ok acc
  | succ fuel ih =>
    intro acc
    refine (onlyCursor_readU 8).bind fun c => ?_
    by_cases h : c = 0
    · simp only [h, if_true]; exact onlyCursor_ok acc
    · simp only [h, if_false]
      intro s
      by_cases hl : s.len ≤ s.byteIndex
      · simp only [hl, if_true]; exact onlyCursor_ok _ s
      · simp only [hl, if_false]; exact ih _ s

/-- A read command moves the cursor inside the buffer, then answers with status 0 or takes a fault. -/
theorem exec_read (i : Instr) (hr : isRead i = true) (s t : State) (ht : exec i s = .next t) :
    ∃ u : State, u = { s with cursor := u.cursor } ∧ (s.cursor ≤ 8 * s.len → u.cursor ≤ 8 * s.len) ∧
      ((∃ v out, t = answered u v out) ∨ (∃ c out, t = takeFault c out u)) := by
  have at_once : ∀ c, exec i s = finish (.raise c s) → ∃ u : State, u = { s with cursor := u.cursor } ∧
      (s.cursor ≤ 8 * s.len → u.cursor ≤ 8 * s.len) ∧
      ((∃ v out, t = answered u v out) ∨ (∃ c out, t = takeFault c out u)) := by
    intro c he
    rw [he] at ht
    simp only [finish_raise, Host.Outcome.next.injEq] at ht
    exact ⟨s, rfl, id, .inr ⟨c, [], ht.symm⟩⟩
  have parts : ∀ {α : Type} (run : State → Run α) (port : α → Result), OnlyCursor run →
      exec i s = finish ((run s).bind fun a t => .ok (port a) t) → ∃ u : State, u = { s with cursor := u.cursor } ∧
      (s.cursor ≤ 8 * s.len → u.cursor ≤ 8 * s.len) ∧
      ((∃ v out, t = answered u v out) ∨ (∃ c out, t = takeFault c out u)) := by
    intro α run port h he
    obtain ⟨hf, hc⟩ := h s
    rw [he] at ht
    cases hrs : run s with
    | ok a u =>
      rw [hrs] at ht hf hc
      simp only [Run.ok_bind, finish_ok, Host.Outcome.next.injEq] at ht
      exact ⟨u, hf, hc, .inl ⟨_, _, ht.symm⟩⟩
    | raise d u =>
      rw [hrs] at ht hf hc
      simp only [Run.raise_bind, finish_raise, Host.Outcome.next.injEq] at ht
      exact ⟨u, hf, hc, .inr ⟨d, [], ht.symm⟩⟩
  cases i with
  | readBit => exact parts readBit (fun b => ⟨zext64 b.toNat, []⟩) onlyCursor_readBit rfl
  | readUint w =>
    cases h : widthLegal 1 w
    · exact at_once _ (exec_readUint_illegal w h s)
    · exact parts _ (fun v => ⟨zext64 v, []⟩) (onlyCursor_readU _) (exec_readUint_legal w h s)
  | readInt w =>
    cases h : widthLegal 2 w
    · exact at_once _ (exec_readInt_illegal w h s)
    · exact parts _ (fun v => ⟨sext64 v, []⟩) (onlyCursor_readS _) (exec_readInt_legal w h s)
  | readFloat => exact parts _ (fun v => ⟨zext64 v, []⟩) (onlyCursor_readFloating float32) rfl
  | readDouble => exact parts _ (fun v => ⟨zext64 v, []⟩) (onlyCursor_readFloating float64) rfl
  | readString =>
    obtain ⟨hf, hc⟩ := onlyCursor_readChars (s.len + 1) [] s
    simp only [exec, execReadString] at ht
    cases hrs : readChars (s.len + 1) [] s with
    | ok a u =>
      rw [hrs] at ht hf hc
      simp only [Run.ok_bind, finishPayload_ok, Host.Outcome.next.injEq] at ht
      exact ⟨u, hf, hc, .inl ⟨_, _, ht.symm⟩⟩
    | raise d u =>
      rw [hrs] at ht hf hc
      simp only [Run.raise_bind, finishPayload_raise, Host.Outcome.next.injEq] at ht
      exact ⟨u, hf, hc, .inr ⟨d, _, ht.symm⟩⟩
  | init | load _ | addBit _ | addUint _ _ | addInt _ _ | addFloat _ | addDouble _ | addString _ | getBuf =>
    simp [isRead] at hr

/-- Taking a fault keeps the invariant: it touches no part of the codec but the flags. -/
theorem inv_takeFault {s : State} (hi : s.Inv) (c : FaultCode) (out : List Byte) : (takeFault c out s).Inv :=
  ⟨hi.canonical, hi.within, hi.cursorInside, hi.lenInCap⟩

theorem inv_answered {s : State} (hi : s.Inv) (v : Val) (out : List Byte) : (answered s v out).Inv :=
  ⟨hi.canonical, hi.within, hi.cursorInside, hi.lenInCap⟩

theorem inv_makeEmpty (s : State) : (makeEmpty s).Inv where
  canonical := rfl
  within := rfl
  cursorInside := Nat.zero_le _
  lenInCap := fun _ _ => Nat.zero_le _

theorem inv_makeLoaded (s : State) (bytes : List Byte) (h : s.tooLong bytes.length = false) :
    (makeLoaded bytes s).Inv where
  canonical := Memory.wf_ofBytes bytes
  within := Memory.below_ofBytes bytes
  cursorInside := Nat.zero_le _
  lenInCap := by
    intro cap hc
    have hc' : s.bufCap = some cap := hc
    simp only [State.tooLong, hc', decide_eq_false_iff_not, Nat.not_lt] at h
    exact h

end Sys2Proof.Machine
end

