-- ==== Sys2Proof/Laws/Decode.lean ====
section
/-! SUPPORT. The fields of a packed command word, and that decodeTableWord is the decoder's answer. -/

namespace Sys2Proof.Laws

@[simp] theorem fieldOp_packWord (op : BitVec 8) (w : Width) (val : Val) : fieldOp (packWord op w val) = op := by
  refine BitVec.eq_of_getLsbD_eq fun i hi => ?_
  simp only [fieldOp, packWord, BitVec.getLsbD_extractLsb', BitVec.getLsbD_append, hi, decide_true, Bool.true_and]
  have h1 : ¬ 72 + i < 64 := by omega
  have h2 : ¬ 72 + i - 64 < 8 := by omega
  have h3 : 72 + i - 64 - 8 = i := by omega
  simp [h1, h2, h3]

@[simp] theorem fieldW_packWord (op : BitVec 8) (w : Width) (val : Val) : fieldW (packWord op w val) = w := by
  refine BitVec.eq_of_getLsbD_eq fun i hi => ?_
  simp only [fieldW, packWord, BitVec.getLsbD_extractLsb', BitVec.getLsbD_append, hi, decide_true, Bool.true_and]
  have h1 : ¬ 64 + i < 64 := by omega
  have h2 : 64 + i - 64 = i := by omega
  simp [h1, h2, hi]

@[simp] theorem fieldVal_packWord (op : BitVec 8) (w : Width) (val : Val) : fieldVal (packWord op w val) = val := by
  refine BitVec.eq_of_getLsbD_eq fun i hi => ?_
  simp only [fieldVal, packWord, BitVec.getLsbD_extractLsb', BitVec.getLsbD_append, hi, decide_true, Bool.true_and]
  simp [hi]

/-- The payload of a placed table word has the length the word asks for. -/
theorem tableCommand_length (nbits w : Nat) :
    (tableCommand nbits w).payload.length = payloadCount (tableCommand nbits w).word := by
  simp [tableCommand]

/-- decodeTableWord answers what the decoder gives for the placed table word. -/
theorem decodeTableWord_eq_decode (nbits w : Nat) :
    decodeTableWord nbits w = (decode (tableCommand nbits w)).toOption := by
  unfold decodeTableWord decode
  rw [if_pos (tableCommand_length nbits w)]

end Sys2Proof.Laws
end

