-- ==== Sys2Proof/Laws/PerInstr.lean ====
section
/-! SUPPORT. Statements about every command as syntax, one lemma per constructor. -/

namespace Sys2Proof.Laws.OpcodeRow

/-- The encoded word carries the command's own row of the opcode map: an opcode below 0x0F in bits 79 to 72, and for a
payload that has a length word, the payload the word asks for (R61, R65). -/
def Statement (i : Instr) : Prop :=
  fieldOp (encode i).word = opcode i ∧ (opcode i).toNat < 0x0F ∧
    ((encodePayload i).length < 2 ^ 64 → payloadCount (encode i).word = (encode i).payload.length)

theorem init : Statement .init := by simp [Statement, encode, opcode, encodePayload, payloadCount]
theorem load (payload : List Byte) : Statement (.load payload) := by
  simp only [Statement, encode, opcode, encodePayload, payloadCount, encodeVal, fieldOp_packWord, fieldVal_packWord]
  refine ⟨trivial, by decide, fun h => ?_⟩
  simpa using h
theorem addBit (value : Bool) : Statement (.addBit value) := by
  simp [Statement, encode, opcode, encodePayload, payloadCount]
theorem readBit : Statement .readBit := by simp [Statement, encode, opcode, encodePayload, payloadCount]
theorem addUint (value : Val) (bits : Width) : Statement (.addUint value bits) := by
  simp [Statement, encode, opcode, encodePayload, payloadCount]
theorem readUint (bits : Width) : Statement (.readUint bits) := by
  simp [Statement, encode, opcode, encodePayload, payloadCount]
theorem addInt (value : Val) (bits : Width) : Statement (.addInt value bits) := by
  simp [Statement, encode, opcode, encodePayload, payloadCount]
theorem readInt (bits : Width) : Statement (.readInt bits) := by
  simp [Statement, encode, opcode, encodePayload, payloadCount]
theorem addFloat (pattern : BitVec 32) : Statement (.addFloat pattern) := by
  simp [Statement, encode, opcode, encodePayload, payloadCount]
theorem readFloat : Statement .readFloat := by simp [Statement, encode, opcode, encodePayload, payloadCount]
theorem addDouble (pattern : BitVec 64) : Statement (.addDouble pattern) := by
  simp [Statement, encode, opcode, encodePayload, payloadCount]
theorem readDouble : Statement .readDouble := by simp [Statement, encode, opcode, encodePayload, payloadCount]
theorem addString (chars : List Byte) : Statement (.addString chars) := by
  simp only [Statement, encode, opcode, encodePayload, payloadCount, encodeVal, fieldOp_packWord, fieldVal_packWord]
  refine ⟨trivial, by decide, fun h => ?_⟩
  simpa using h
theorem readString : Statement .readString := by simp [Statement, encode, opcode, encodePayload, payloadCount]
theorem getBuf : Statement .getBuf := by simp [Statement, encode, opcode, encodePayload, payloadCount]

end Sys2Proof.Laws.OpcodeRow
end

