-- ==== Sys2Proof/Laws/Transfer.lean ====
section
/-! SUPPORT. The transfer of spec/70_reset_and_hazards.md R205: what a write command leaves on an empty instance is what the
read command finds at position 0 after getBuf and load. -/

namespace Sys2Proof.Machine

theorem getD_bytes (s : State) (a : Nat) (ha : a < s.len) : s.bytes.getD a 0#8 = s.buf.read a := by
  unfold State.bytes
  rw [Memory.getD_bytesFrom _ _ _ _ ha, Nat.zero_add]

@[simp] theorem length_bytes (s : State) : s.bytes.length = s.len := by simp [State.bytes]

theorem exec_getBuf (s : State) : exec .getBuf s = .next (answered s (countValue s.len) s.bytes) := rfl

theorem exec_init (s : State) : exec .init s = .next (answered (makeEmpty s) 0 []) := rfl

theorem exec_load_fits (s : State) (payload : List Byte) (h : s.tooLong payload.length = false) :
    exec (.load payload) s = .next (answered (makeLoaded payload s) 0 []) := by
  simp [exec, execLoad, h, Result.none]

/-- Loading the bytes getBuf gave puts the same bits at the same positions. -/
theorem bitAt_makeLoaded_bytes (s u : State) (p : Nat) (hp : p < 8 * u.len) :
    (makeLoaded u.bytes s).bitAt p = u.bitAt p := by
  unfold State.bitAt
  rw [makeLoaded_buf, Memory.read_ofBytes, getD_bytes u _ (by omega)]

/-- A write command and a transfer: the state the read starts from holds the written bits from position 0 on. -/
theorem transfer (i : Instr) (run : State → Run Unit) (n : Nat) (f : Nat → Bool) (hw : Writes run n f)
    (he : ∀ s, exec i s = finish ((run s).bind fun _ t => .ok Result.none t)) (s : State)
    (hcap : ∀ cap, s.bufCap = some cap → n ≤ 8 * cap) :
    ∃ t g v, execs [.init, i, .getBuf] s = .next t ∧ t.cursor = n ∧ t.lastResponse = some g ∧ g.status = 0 ∧
      exec (.load g.out) t = .next v ∧ v.Inv ∧ v.cursor = 0 ∧ v.len = (n + 7) / 8 ∧
      ∀ p, p < n → v.bitAt p = f p := by
  have hi : (answered (makeEmpty s) 0 []).Inv := inv_answered (inv_makeEmpty s) 0 []
  obtain ⟨u, e, w, iu⟩ := (hw _ hi).1 (by
    intro cap hc
    have := hcap cap hc
    simpa using this)
  have hl : u.len = (n + 7) / 8 := by rw [w.len]; simp
  have hfit : (answered (answered u 0 []) (countValue u.len) u.bytes).tooLong u.bytes.length = false := by
    unfold State.tooLong
    simp only [answered_bufCap, length_bytes]
    cases hb : u.bufCap with
    | none => rfl
    | some cap => have := iu.lenInCap cap hb; simp only [decide_eq_false_iff_not, Nat.not_lt]; exact this
  refine ⟨answered (answered u 0 []) (countValue u.len) u.bytes, _, _, ?_, ?_, by simp [State.lastResponse]; rfl, rfl,
    exec_load_fits _ _ hfit, inv_answered (inv_makeLoaded _ _ hfit) 0 [], rfl, ?_, ?_⟩
  · have e1 : exec i (answered (makeEmpty s) 0 []) = .next (answered u 0 []) := by rw [he, e]; rfl
    simp only [execs, exec_init, e1, exec_getBuf, answered_len]
    rfl
  · simp [w.cursor]
  · simp [hl]
  · intro p hp
    show (makeLoaded u.bytes (answered (answered u 0 []) (countValue u.len) u.bytes)).bitAt p = f p
    rw [bitAt_makeLoaded_bytes _ u p (by omega), w.bits]
    simp [hp]

end Sys2Proof.Machine
end

