-- ==== Sys2Proof/Tests/Slice0.lean ====
section
/-! SUPPORT. The author's own tests: ill-formed commands the well-formedness check refuses, words written out from
spec/30_encoding.md R60 and R61, single steps whose expected results stand in spec/95_test_vectors.md (the vector is named
at each test), and for each obligation with hypotheses a state and operands that meet them all. -/

namespace Sys2Proof.Tests

open Sys2Proof.Machine

/-! ### Helpers -/

/-- A codec that holds the bytes with the cursor at the given position, no flag set and nothing pending. -/
def codec (bytes : List Byte) (cursor : Nat) : State :=
  { State.reset with buf := Memory.ofBytes bytes, len := bytes.length, cursor := cursor }

/-- The same in a block of finite capacity. -/
def capped (cap : Nat) (bytes : List Byte) (cursor : Nat) : State := { codec bytes cursor with bufCap := some cap }

/-- The buffer's bytes and the cursor of the next state. -/
def stored : Host.Outcome State Fault Refusal → Option (List Byte × Nat)
  | .next t => some (t.bytes, t.cursor)
  | _ => none

/-- Status and flags of the response the step gave. -/
def status : Host.Outcome State Fault Refusal → Option (BitVec 8 × BitVec 8)
  | .next t => t.lastResponse.map fun r => (r.status, r.errs)
  | _ => none

/-- Status, value and payload of the response the step gave. -/
def result : Host.Outcome State Fault Refusal → Option (BitVec 8 × Val × List Byte)
  | .next t => t.lastResponse.map fun r => (r.status, r.value, r.out)
  | _ => none

/-! ### Well-formedness refuses each broken contract (R64, R65) -/

theorem test_wf_addUint_width_0 : WellFormed (.addUint 7 0) = false := by decide
theorem test_wf_addUint_width_65 : WellFormed (.addUint 7 65) = false := by decide
theorem test_wf_readUint_width_0 : WellFormed (.readUint 0) = false := by decide
theorem test_wf_readUint_width_200 : WellFormed (.readUint 200) = false := by decide
theorem test_wf_addInt_width_1 : WellFormed (.addInt 5 1) = false := by decide
theorem test_wf_addInt_width_65 : WellFormed (.addInt 5 65) = false := by decide
theorem test_wf_readInt_width_1 : WellFormed (.readInt 1) = false := by decide
theorem test_wf_readInt_width_255 : WellFormed (.readInt 255) = false := by decide

/-- A payload of 2^64 bytes is one too long for the 64-bit length (R65). -/
theorem long_payload {payload : List Byte} (h : 2 ^ 64 ≤ payload.length) : payloadFits payload = false :=
  decide_eq_false (Nat.not_lt.2 h)

theorem test_wf_load_length : ∃ payload : List Byte, WellFormed (.load payload) = false :=
  ⟨List.replicate (2 ^ 64) 0, long_payload (Nat.le_of_eq List.length_replicate.symm)⟩

theorem test_wf_addString_length : ∃ chars : List Byte, WellFormed (.addString chars) = false :=
  ⟨List.replicate (2 ^ 64) 0, long_payload (Nat.le_of_eq List.length_replicate.symm)⟩

theorem test_wf_limits_accepted :
    (WellFormed (.addUint 7 1) && WellFormed (.addUint 7 64) && WellFormed (.readUint 1) && WellFormed (.readUint 64) &&
      WellFormed (.addInt 7 2) && WellFormed (.addInt 7 64) && WellFormed (.readInt 2) &&
      WellFormed (.readInt 64)) = true := by decide

/-! ### Words written out from R60 and R61: opcode, width, value -/

theorem test_word_init : decode ⟨0x00_00_0000000000000000#80, []⟩ = .ok .init := by decide
theorem test_word_load : decode ⟨0x01_00_0000000000000003#80, [0xFF, 0xFE, 0xFD]⟩ = .ok (.load [0xFF, 0xFE, 0xFD]) := by
  decide
theorem test_word_addBit : decode ⟨0x02_00_0000000000000001#80, []⟩ = .ok (.addBit true) := by decide
theorem test_word_addBit_ignored : decode ⟨0x02_07_FFFFFFFFFFFFFFFE#80, []⟩ = .ok (.addBit false) := by decide
theorem test_word_readBit : decode ⟨0x03_00_0000000000000000#80, []⟩ = .ok .readBit := by decide
theorem test_word_addUint : decode ⟨0x04_3C_000000000009FBF1#80, []⟩ = .ok (.addUint 654321 60) := by decide
theorem test_word_readUint : decode ⟨0x05_0A_0000000000000000#80, []⟩ = .ok (.readUint 10) := by decide
theorem test_word_addInt :
    decode ⟨0x06_0C_FFFFFFFFFFFFFF9C#80, []⟩ = .ok (.addInt (BitVec.ofInt 64 (-100)) 12) := by decide
theorem test_word_readInt : decode ⟨0x07_1E_0000000000000000#80, []⟩ = .ok (.readInt 30) := by decide
theorem test_word_addFloat : decode ⟨0x08_00_FFFFFFFF40000000#80, []⟩ = .ok (.addFloat 0x40000000) := by decide
theorem test_word_readFloat : decode ⟨0x09_00_0000000000000000#80, []⟩ = .ok .readFloat := by decide
theorem test_word_addDouble :
    decode ⟨0x0A_00_C05EDD3BE22E5DE1#80, []⟩ = .ok (.addDouble 0xC05EDD3BE22E5DE1) := by decide
theorem test_word_readDouble : decode ⟨0x0B_00_0000000000000000#80, []⟩ = .ok .readDouble := by decide
theorem test_word_addString :
    decode ⟨0x0C_00_0000000000000003#80, [0x41, 0x00, 0x42]⟩ = .ok (.addString [0x41, 0x00, 0x42]) := by decide
theorem test_word_readString : decode ⟨0x0D_00_0000000000000000#80, []⟩ = .ok .readString := by decide
theorem test_word_getBuf : decode ⟨0x0E_00_0000000000000000#80, []⟩ = .ok .getBuf := by decide

/-- V-X8: the first and the last reserved opcode. -/
theorem test_word_reserved : decode ⟨0x0F_00_0000000000000000#80, []⟩ = .error .illegalCommand ∧
    decode ⟨0xFF_40_FFFFFFFFFFFFFFFF#80, []⟩ = .error .illegalCommand := by decide

/-- R65: the list's length is not `N`. -/
theorem test_word_payload_length : decode ⟨0x0C_00_0000000000000003#80, [0x41, 0x00]⟩ = .error .payloadLength ∧
    decode ⟨0x03_00_0000000000000000#80, [0x41]⟩ = .error .payloadLength := by decide

/-- An illegal width decodes; the command answers it (R64, R84). -/
theorem test_word_illegal_width : decode ⟨0x04_41_0000000000000007#80, []⟩ = .ok (.addUint 7 65) := by decide

/-- The encoder writes program P1's words (95_test_vectors.md part 3, commands 3 and 7). -/
theorem test_encode : encode (.addUint 654321 60) = ⟨0x04_3C_000000000009FBF1#80, []⟩ ∧
    encode (.addString [0x48, 0x69]) = ⟨0x0C_00_0000000000000002#80, [0x48, 0x69]⟩ := by decide

/-- The response word of program P3, command 2, but for its unspecified value (R66). -/
theorem test_response_word : (Response.word ⟨2, 0x02, 0x1234, []⟩) = 0x02_02_0000000000001234#80 := by decide

/-! ### Single steps -/

/-- V-B9, V-X10: the former bytes and the flags are gone. -/
theorem test_init : stored (exec .init { codec [0xFF] 8 with err := 0b00001 }) = some ([], 0) ∧
    status (exec .init { codec [0xFF] 8 with err := 0b00001 }) = some (0, 0x00) := by decide

/-- Program P2, command 1. -/
theorem test_load : stored (exec (.load [0xFF, 0xFF, 0xFF]) (codec [0x0C] 4)) = some ([0xFF, 0xFF, 0xFF], 0) := by decide

/-- V-X7. -/
theorem test_load_over_capacity :
    stored (exec (.load [1, 2, 3]) (capped 2 [0xFF, 0x03] 10)) = some ([0xFF, 0x03], 10) ∧
    status (exec (.load [1, 2, 3]) (capped 2 [0xFF, 0x03] 10)) = some (2, 0x02) := by decide

/-- V-B5: a bit of an existing byte is cleared, the rest kept. -/
theorem test_addBit_clears : stored (exec (.addBit false) (codec [0xFF] 0)) = some ([0xFE], 1) := by decide

/-- V-X6. -/
theorem test_addBit_full : stored (exec (.addBit true) (capped 2 [0xFF, 0x1F] 16)) = some ([0xFF, 0x1F], 16) ∧
    status (exec (.addBit true) (capped 2 [0xFF, 0x1F] 16)) = some (2, 0x02) := by decide

/-- V-B4: the third bit of 0x05. -/
theorem test_readBit : result (exec .readBit (codec [0x05] 2)) = some (0, 1, []) := by decide

/-- V-B4: the ninth. -/
theorem test_readBit_end : stored (exec .readBit (codec [0x05] 8)) = some ([0x05], 8) ∧
    status (exec .readBit (codec [0x05] 8)) = some (1, 0x01) := by decide

/-- V-U9: a 64-bit field over nine bytes. -/
theorem test_addUint_straddles : stored (exec (.addUint 0x0123456789ABCDEF 64) (codec [0x05] 3)) =
    some ([0x7D, 0x6F, 0x5E, 0x4D, 0x3C, 0x2B, 0x1A, 0x09, 0x00], 67) := by decide

/-- V-U10. -/
theorem test_addUint_width_0 : stored (exec (.addUint 7 0) (codec [] 0)) = some ([], 0) ∧
    status (exec (.addUint 7 0) (codec [] 0)) = some (3, 0x04) := by decide

/-- V-U8. -/
theorem test_readUint : result (exec (.readUint 12) (codec [0xBC, 0x0A] 0)) = some (0, 0xABC, []) := by decide

/-- V-X3: three of five bits are consumed. -/
theorem test_readUint_partial : stored (exec (.readUint 5) (codec [0xFF] 5)) = some ([0xFF], 8) ∧
    status (exec (.readUint 5) (codec [0xFF] 5)) = some (1, 0x01) := by decide

/-- V-I10. -/
theorem test_addInt : stored (exec (.addInt (BitVec.ofInt 64 (-1234)) 30) (codec [] 0)) =
    some ([0xA3, 0x09, 0x00, 0x00], 30) := by decide

/-- V-X5: six of twelve bits are written. -/
theorem test_addInt_partial :
    stored (exec (.addInt (BitVec.ofInt 64 (-100)) 12) (capped 2 [0xFF, 0x03] 10)) = some ([0xFF, 0x1F], 16) ∧
    status (exec (.addInt (BitVec.ofInt 64 (-100)) 12) (capped 2 [0xFF, 0x03] 10)) = some (2, 0x02) := by decide

/-- V-I20. -/
theorem test_readInt : result (exec (.readInt 2) (codec [0x03] 0)) = some (0, BitVec.ofInt 64 (-2), []) := by decide

/-- V-I12: the most negative number. -/
theorem test_readInt_min : result (exec (.readInt 64) (codec [0xFF, 0xFF, 0xFF, 0xFF, 0xFF, 0xFF, 0xFF, 0xFF] 0)) =
    some (0, 0x8000000000000000, []) := by decide

/-- V-F8: -2.5. -/
theorem test_addFloat : stored (exec (.addFloat 0xC0200000) (codec [] 0)) = some ([0x05, 0x00, 0x00, 0x40], 32) := by
  decide

/-- V-F20: a subnormal whose exponent is truncated. -/
theorem test_addFloat_subnormal :
    stored (exec (.addFloat 0x80000003) (codec [] 0)) = some ([0x4F, 0x00, 0x00, 0x80], 32) := by decide

/-- V-F35: a tie that rounds to even, up. -/
theorem test_readFloat_tie : result (exec .readFloat (codec [0xFA, 0x07, 0x00, 0x00] 0)) = some (0, 0x00400002, []) := by
  decide

/-- V-F40: above half, negative. -/
theorem test_readFloat_negative :
    result (exec .readFloat (codec [0xFF, 0xFF, 0xFF, 0xFF] 0)) = some (0, 0x80400000, []) := by decide

/-- V-D6: -123.45678. -/
theorem test_addDouble : stored (exec (.addDouble 0xC05EDD3BE22E5DE1) (codec [] 0)) =
    some ([0x19, 0x10, 0xDE, 0xE5, 0x22, 0xBE, 0xD3, 0xED], 64) := by decide

/-- V-D16. -/
theorem test_addDouble_infinity : stored (exec (.addDouble 0x7FF0000000000000) (codec [] 0)) = some ([], 0) ∧
    status (exec (.addDouble 0x7FF0000000000000) (codec [] 0)) = some (4, 0x08) := by decide

/-- V-D8, read back: pi. -/
theorem test_readDouble : result (exec .readDouble (codec [0x04, 0x80, 0xD1, 0x42, 0x44, 0xB5, 0x1F, 0x92] 0)) =
    some (0, 0x400921FB54442D18, []) := by decide

/-- V-D4, read back: the sign of a zero is dropped. -/
theorem test_readDouble_zero : result (exec .readDouble (codec [0x01, 0, 0, 0, 0, 0, 0, 0] 0)) = some (0, 0, []) := by
  decide

/-- V-S12: a string that is not aligned. -/
theorem test_addString_unaligned : stored (exec (.addString [0x41]) (codec [0x01] 1)) = some ([0x83, 0x00, 0x00], 17) := by
  decide

/-- V-S4: an embedded zero is written like any character. -/
theorem test_addString_zero : stored (exec (.addString [0x41, 0x00, 0x42]) (codec [] 0)) =
    some ([0x41, 0x00, 0x42, 0x00], 32) := by decide

/-- V-S5: no terminator, aligned. -/
theorem test_readString_end : result (exec .readString (codec [0x41, 0x42] 0)) = some (0, 2, [0x41, 0x42]) := by decide

/-- V-S9: the second character is cut off. -/
theorem test_readString_cut : stored (exec .readString (codec [0x83, 0x84] 1)) = some ([0x83, 0x84], 16) ∧
    status (exec .readString (codec [0x83, 0x84] 1)) = some (1, 0x01) := by decide

/-- Program P2, command 8: the sticky flag shows in a response with status 0. -/
theorem test_getBuf : result (exec .getBuf { codec [0x07, 0xC5, 0xFF, 0x05] 27 with err := 0b00001 }) =
      some (0, 4, [0x07, 0xC5, 0xFF, 0x05]) ∧
    status (exec .getBuf { codec [0x07, 0xC5, 0xFF, 0x05] 27 with err := 0b00001 }) = some (0, 0x01) := by decide

/-- Program P3, command 6: a reserved opcode after three other faults. -/
theorem test_step_reserved :
    status (step { capped 2 [0xFF, 0x1F] 16 with
      err := 0b01110, pending := [.command ⟨0x0F_00_0000000000000000#80, []⟩] }) = some (5, 0x1E) := by decide

/-- R201: a reset that arrives while a command runs gives no response. -/
theorem test_step_reset :
    stored (step { codec [0xFF] 3 with pending := [.reset (some (encode .readBit))] }) = some ([], 0) ∧
    status (step { codec [0xFF] 3 with pending := [.reset (some (encode .readBit))] }) = none := by decide

/-! ### The invariant on the helpers' states -/

theorem inv_empty : (codec [] 0).Inv := ⟨by decide, by decide, by decide, by intro c h; cases h⟩

theorem inv_byte : (codec [0x05] 3).Inv := ⟨by decide, by decide, by decide, by intro c h; cases h⟩

theorem inv_full : (capped 2 [0xFF, 0x03] 16).Inv := ⟨by decide, by decide, by decide, by intro c h; cases h; decide⟩

theorem inv_partial : (capped 2 [0xFF, 0x03] 10).Inv := ⟨by decide, by decide, by decide, by intro c h; cases h; decide⟩

theorem inv_unaligned : (codec [0x83, 0x84] 1).Inv := ⟨by decide, by decide, by decide, by intro c h; cases h⟩

theorem inv_string : (codec [0x48, 0x69, 0x00] 0).Inv := ⟨by decide, by decide, by decide, by intro c h; cases h⟩

theorem inv_words : (codec [0x05, 0x00, 0x00, 0x40, 0x00, 0x00, 0x00, 0x00] 0).Inv :=
  ⟨by decide, by decide, by decide, by intro c h; cases h⟩

/-- In an unbounded block there is room for every field. -/
theorem room_codec (bytes : List Byte) (cursor n : Nat) : (codec bytes cursor).Room n := by intro c h; cases h

/-! ### Witnesses: the hypotheses of the obligations are met together -/

/-- With the longest payload that has a length word, and with none. -/
theorem witness_DecodeOfEncodeIsTheCommand :
    (∃ payload : List Byte, payload.length = 2 ^ 64 - 1 ∧ (encodePayload (.load payload)).length < 2 ^ 64) ∧
    (encodePayload (.addUint 300 255)).length < 2 ^ 64 :=
  ⟨⟨List.replicate (2 ^ 64 - 1) 0, List.length_replicate, lt_of_eq_of_lt List.length_replicate (by decide)⟩, by decide⟩

theorem witness_DecodedPairAgreesWithEncodedPair :
    decode ⟨0x02_07_FFFFFFFFFFFFFFFF#80, []⟩ = .ok (.addBit true) := by decide

/-- The payload clause at lengths 0 and 3, the two words of V-X11, and an instruction for each clause on the encoder. -/
theorem witness_UnusedFieldsAreIgnored :
    ([] : List Byte).length = (0 : Val).toNat ∧ ([1, 2, 3] : List Byte).length = (3 : Val).toNat ∧
    decode ⟨0x02_07_FFFFFFFFFFFFFFFF#80, []⟩ = decode ⟨0x02_00_0000000000000001#80, []⟩ ∧
    isRead (.readUint 5) = true ∧ (∃ b, Instr.addBit true = .addBit b) ∧ (∃ p, Instr.addFloat 7 = .addFloat p) := by
  refine ⟨rfl, rfl, by decide, rfl, ⟨_, rfl⟩, ⟨_, rfl⟩⟩

/-- One state for each of the three kinds of word. -/
theorem witness_EveryWordIsACommandOrAnswersAFault :
    (∀ cw ∈ [0x04_40_0000000000000007#80, 0x04_41_0000000000000007#80, 0x0F_00_0000000000000000#80],
      ∃ s : State, s.pending = .command ⟨cw, []⟩ :: [] ∧ ([] : List Byte).length = payloadCount cw) := by
  intro cw h
  refine ⟨{ State.reset with pending := [.command ⟨cw, []⟩] }, rfl, ?_⟩
  simp only [List.mem_cons, List.not_mem_nil, or_false] at h
  rcases h with rfl | rfl | rfl <;> decide

theorem witness_StepRunsTheDecodedCommand :
    { State.reset with pending := [.command (encode (.addUint 300 4))] }.pending =
      .command (encode (.addUint 300 4)) :: [] ∧
    decode (encode (.addUint 300 4)) = .ok (.addUint 300 4) := ⟨rfl, by decide⟩

theorem witness_PlacedTableWordRunsNext : decodeTableWord 80 0x04_04_000000000000012C = some (.addUint 300 4) := by decide

/-- The first and the last reserved opcode. -/
theorem witness_ReservedOpcodesAnswerIllegalCommand :
    0x0F ≤ (fieldOp 0x0F_00_0000000000000000#80).toNat ∧ 0x0F ≤ (fieldOp 0xFF_40_FFFFFFFFFFFFFFFF#80).toNat ∧
    { State.reset with pending := [.command ⟨0x0F_00_0000000000000000#80, []⟩] }.pending =
      .command ⟨0x0F_00_0000000000000000#80, []⟩ :: [] := by refine ⟨by decide, by decide, rfl⟩

/-- Both clauses, one byte apart. -/
theorem witness_OnlyAPayloadOfWrongLengthIsRefused :
    ([0x41, 0x00] : List Byte).length ≠ payloadCount 0x0C_00_0000000000000003#80 ∧
    ([0x41, 0x00, 0x42] : List Byte).length = payloadCount 0x0C_00_0000000000000003#80 ∧
    (∃ s : State, s.pending = .command ⟨0x0C_00_0000000000000003#80, [0x41, 0x00]⟩ :: []) :=
  ⟨by decide, by decide, ⟨{ State.reset with pending := [_] }, rfl⟩⟩

theorem witness_ResetIsTheEmptyCodec :
    { codec [0xFF] 3 with pending := [.reset (some (encode .readBit))] }.pending =
      .reset (some (encode .readBit)) :: [] := rfl

theorem witness_WithNothingIssuedTheBlockWaits : (codec [0xFF] 3).pending = [] := rfl

theorem witness_EveryStepKeepsTheInvariant :
    (codec [0x05] 3).Inv ∧ ∃ t, step (codec [0x05] 3) = .next t := ⟨inv_byte, _, rfl⟩

theorem witness_ResponsesStayLegal :
    (∀ r ∈ [(⟨5, 0x1F, 7, []⟩ : Response)], r.Legal) ∧
    ∃ t, step { codec [0x05] 3 with
      responses := [⟨5, 0x1F, 7, []⟩], pending := [.command (encode .readBit)] } = .next t :=
  ⟨by intro r h; cases List.mem_singleton.1 h; exact ⟨by decide, by decide⟩, _, rfl⟩

theorem witness_CursorAndLengthNeverDecrease :
    isConstruction (.addUint 7 3) = false ∧ ∃ t, exec (.addUint 7 3) (codec [0x05] 3) = .next t := ⟨rfl, _, rfl⟩

/-- A write that moves the cursor from 3 to 6, with a position on each side, and a read. -/
theorem witness_BitsChangeOnlyWhereTheCursorPasses :
    (codec [0x05] 3).Inv ∧ isConstruction (.addUint 7 3) = false ∧
    (∃ t, exec (.addUint 7 3) (codec [0x05] 3) = .next t ∧ (2 < (codec [0x05] 3).cursor ∨ t.cursor ≤ 2) ∧
      (6 < (codec [0x05] 3).cursor ∨ t.cursor ≤ 6)) ∧
    isWrite .readBit = false ∧ isConstruction .readBit = false ∧ ∃ t, exec .readBit (codec [0x05] 3) = .next t :=
  ⟨inv_byte, rfl, ⟨_, rfl, by decide, by decide⟩, rfl, rfl, _, rfl⟩

theorem witness_PadBitsStayZero :
    (codec [] 0).Inv ∧ (∀ payload, Instr.addBit true ≠ .load payload) ∧
    (∀ p, (codec [] 0).cursor ≤ p → (codec [] 0).bitAt p = false) ∧ ∃ t, exec (.addBit true) (codec [] 0) = .next t :=
  ⟨inv_empty, by simp, fun p _ => BitVec.getLsbD_zero, _, rfl⟩

theorem witness_WritingKeepsTheLengthTight :
    (codec [0x05] 3).Inv ∧ isWrite (.addUint 7 6) = true ∧
    (codec [0x05] 3).len = ((codec [0x05] 3).cursor + 7) / 8 ∧ ∃ t, exec (.addUint 7 6) (codec [0x05] 3) = .next t :=
  ⟨inv_byte, rfl, by decide, _, rfl⟩

theorem witness_ReadsChangeOnlyTheCursor :
    isRead (.readUint 5) = true ∧
    ∃ t r, exec (.readUint 5) (codec [0x05] 3) = .next t ∧ t.lastResponse = some r ∧ r.status = 0 :=
  ⟨rfl, _, _, rfl, rfl, rfl⟩

/-- A command that faults and one that does not. -/
theorem witness_FlagsAreSticky :
    (∃ t r, exec .readBit (codec [0x05] 8) = .next t ∧ t.lastResponse = some r ∧ r.status ≠ 0) ∧
    (∃ t r, exec .readBit (codec [0x05] 7) = .next t ∧ t.lastResponse = some r ∧ r.status = 0) :=
  ⟨⟨_, _, rfl, rfl, by decide⟩, ⟨_, _, rfl, rfl, rfl⟩⟩

theorem witness_FlagsBlockNothing : ∃ t, exec .readBit (codec [0x05] 8) = .next t := ⟨_, rfl⟩

theorem witness_UnboundedCapacityNeverFills :
    (codec [0x05] 8).bufCap = none ∧ ∃ t r, exec (.addBit true) (codec [0x05] 8) = .next t ∧ t.lastResponse = some r :=
  ⟨rfl, _, _, rfl, rfl⟩

/-- Both clauses. -/
theorem witness_TheEndStaysTheEnd :
    ((codec [0x05] 8).cursor = 8 * (codec [0x05] 8).len ∧ isRead (.readUint 1) = true ∧
      checksPass (.readUint 1) = true) ∧
    ((capped 2 [0xFF, 0x03] 16).bufCap = some 2 ∧ (capped 2 [0xFF, 0x03] 16).cursor = 8 * 2 ∧
      isWrite (.addUint 7 64) = true ∧ checksPass (.addUint 7 64) = true) := by decide

/-- The written position, and one beside it. -/
theorem witness_ReadReturnsTheLastWrite :
    (codec [0x05] 3).Inv ∧ (codec [0x05] 3).Room 1 ∧
    ∃ t, exec (.addBit true) (codec [0x05] 3) = .next t ∧ 3 < 8 * t.len ∧ 4 < 8 * t.len :=
  ⟨inv_byte, room_codec _ _ _, _, rfl, by decide, by decide⟩

/-- The widest split, and the narrowest. -/
theorem witness_MixedWidthReadsSplitTheField :
    (1 ≤ (63 : Width).toNat ∧ 1 ≤ (1 : Width).toNat ∧ (64 : Width).toNat = (63 : Width).toNat + (1 : Width).toNat ∧
      (64 : Width).toNat ≤ 64 ∧ (codec [0x05, 0x00, 0x00, 0x40, 0x00, 0x00, 0x00, 0x00] 0).Readable (64 : Width).toNat) ∧
    (1 ≤ (1 : Width).toNat ∧ (2 : Width).toNat = (1 : Width).toNat + (1 : Width).toNat ∧
      (codec [0x05] 6).Readable (2 : Width).toNat) := by unfold State.Readable; decide

/-- A payload that just fits and one that just does not. -/
theorem witness_LoadReplacesTheCodec :
    (∀ cap, (capped 2 [] 0).bufCap = some cap → ([1, 2] : List Byte).length ≤ cap) ∧
    (capped 2 [] 0).bufCap = some 2 ∧ 2 < ([1, 2, 3] : List Byte).length :=
  ⟨by intro c h; cases h; decide, rfl, by decide⟩

/-- The bytes clause at the last byte, and a count that fits. -/
theorem witness_GetBufGivesTheBytes :
    3 < (codec [0x07, 0xC5, 0xFF, 0x05] 27).len ∧ (codec [0x07, 0xC5, 0xFF, 0x05] 27).len < 2 ^ 64 := by decide

/-- The last position below the capacity, and the first beyond it. -/
theorem witness_AddBitWritesOneBit :
    ((capped 2 [0xFF, 0x03] 10).Inv ∧
      ∀ cap, (capped 2 [0xFF, 0x03] 10).bufCap = some cap → (capped 2 [0xFF, 0x03] 10).cursor / 8 < cap) ∧
    ((capped 2 [0xFF, 0x03] 16).Inv ∧ (capped 2 [0xFF, 0x03] 16).bufCap = some 2 ∧
      2 ≤ (capped 2 [0xFF, 0x03] 16).cursor / 8) :=
  ⟨⟨inv_partial, by intro c h; cases h; decide⟩, inv_full, rfl, by decide⟩

/-- The last readable position, and the end. -/
theorem witness_ReadBitGivesTheBitAtTheCursor :
    (codec [0x05] 7).cursor / 8 < (codec [0x05] 7).len ∧ (codec [0x05] 8).len ≤ (codec [0x05] 8).cursor / 8 := by decide

/-- The narrowest and the widest legal width, and an illegal one on each side; room and no room for the field. -/
theorem witness_AddUintWritesTheLowBits :
    (codec [] 0).Inv ∧ (1 ≤ (1 : Width).toNat ∧ (1 : Width).toNat ≤ 64) ∧
    (1 ≤ (64 : Width).toNat ∧ (64 : Width).toNat ≤ 64) ∧ (0 : Width).toNat < 1 ∧ 64 < (65 : Width).toNat ∧
    (codec [] 0).Room 64 ∧
    ((capped 2 [0xFF, 0x03] 10).Inv ∧ (capped 2 [0xFF, 0x03] 10).bufCap = some 2 ∧
      8 * 2 < (capped 2 [0xFF, 0x03] 10).cursor + (64 : Width).toNat) :=
  ⟨inv_empty, by decide, by decide, by decide, by decide, room_codec _ _ _, inv_partial, rfl, by decide⟩

/-- As above; readable and not. -/
theorem witness_ReadUintGivesTheField :
    (codec [0x05] 3).Inv ∧ (1 ≤ (5 : Width).toNat ∧ (5 : Width).toNat ≤ 64) ∧ (codec [0x05] 3).Readable 5 ∧
    ¬ (codec [0x05] 3).Readable 6 ∧ (0 : Width).toNat < 1 ∧ 64 < (65 : Width).toNat ∧
    ((codec [0x05, 0x00, 0x00, 0x40, 0x00, 0x00, 0x00, 0x00] 0).Inv ∧ (64 : Width).toNat ≤ 64 ∧
      (codec [0x05, 0x00, 0x00, 0x40, 0x00, 0x00, 0x00, 0x00] 0).Readable 64) := by
  refine ⟨inv_byte, ?_, ?_, ?_, ?_, ?_, inv_words, ?_, ?_⟩ <;> first | decide | (unfold State.Readable; decide)

/-- The limits of the signed widths. -/
theorem witness_AddIntWritesSignAndMagnitude :
    (codec [] 0).Inv ∧ (2 ≤ (2 : Width).toNat ∧ (2 : Width).toNat ≤ 64) ∧
    (2 ≤ (64 : Width).toNat ∧ (64 : Width).toNat ≤ 64) ∧ (1 : Width).toNat < 2 ∧ 64 < (65 : Width).toNat ∧
    (codec [] 0).Room 64 ∧
    ((capped 2 [0xFF, 0x03] 10).Inv ∧ (capped 2 [0xFF, 0x03] 10).bufCap = some 2 ∧
      8 * 2 < (capped 2 [0xFF, 0x03] 10).cursor + (12 : Width).toNat) :=
  ⟨inv_empty, by decide, by decide, by decide, by decide, room_codec _ _ _, inv_partial, rfl, by decide⟩

/-- The limits of the signed widths; readable and not. -/
theorem witness_ReadIntGivesTheSignedField :
    (codec [0x05] 3).Inv ∧ (2 ≤ (2 : Width).toNat ∧ (2 : Width).toNat ≤ 64) ∧ (codec [0x05] 3).Readable 2 ∧
    ¬ (codec [0x05] 3).Readable 64 ∧ (1 : Width).toNat < 2 ∧ 64 < (65 : Width).toNat ∧
    ((codec [0x05, 0x00, 0x00, 0x40, 0x00, 0x00, 0x00, 0x00] 0).Inv ∧
      (codec [0x05, 0x00, 0x00, 0x40, 0x00, 0x00, 0x00, 0x00] 0).Readable 64) := by
  refine ⟨inv_byte, ?_, ?_, ?_, ?_, ?_, inv_words, ?_⟩ <;> first | decide | (unfold State.Readable; decide)

/-- Both ends of the range of `i`. -/
theorem witness_SignedFieldComplementsNegatives : 0 < 64 ∧ 63 < 64 := by decide

/-- The narrowest and the widest field, in a block the widest just fills. -/
theorem witness_UnsignedRoundTrip :
    (1 ≤ (1 : Width).toNat ∧ (64 : Width).toNat ≤ 64) ∧
    ∀ cap, (capped 8 [] 0).bufCap = some cap → (64 : Width).toNat ≤ 8 * cap :=
  ⟨by decide, by intro c h; cases h; decide⟩

/-- The two ends of the range of 8 bits, and a value beyond each. -/
theorem witness_SignedRoundTrip :
    (2 ≤ (8 : Width).toNat ∧ (8 : Width).toNat ≤ 64) ∧
    (∀ cap, (capped 1 [] 0).bufCap = some cap → (8 : Width).toNat ≤ 8 * cap) ∧
    (-(2 ^ ((8 : Width).toNat - 1) : Int) ≤ (BitVec.ofInt 64 (-128)).toInt ∧
      (BitVec.ofInt 64 (-128)).toInt ≤ (2 ^ ((8 : Width).toNat - 1) : Int) - 1) ∧
    (-(2 ^ ((8 : Width).toNat - 1) : Int) ≤ (127 : Val).toInt ∧
      (127 : Val).toInt ≤ (2 ^ ((8 : Width).toNat - 1) : Int) - 1) ∧
    0 ≤ (128 : Val).toInt ∧ (BitVec.ofInt 64 (-129)).toInt < 0 :=
  ⟨by decide, by intro c h; cases h; decide, by decide, by decide, by decide, by decide⟩

/-- The least subnormal of binary32, and the largest finite number of binary64. -/
theorem witness_DecompositionIsTheExactFormula :
    (isFloatFmt float32 ∧ 0x00000001 < 2 ^ (1 + float32.eb + float32.fb) ∧ float32.unsupported 0x00000001 = false ∧
      float32.isZero 0x00000001 = false) ∧
    (isFloatFmt float64 ∧ 0x7FEFFFFFFFFFFFFF < 2 ^ (1 + float64.eb + float64.fb) ∧
      float64.unsupported 0x7FEFFFFFFFFFFFFF = false ∧ float64.isZero 0x7FEFFFFFFFFFFFFF = false) :=
  ⟨⟨.inl rfl, by decide, by decide, by decide⟩, .inr rfl, by decide, by decide, by decide⟩

/-- The exponents where the clauses meet, and the ends of the range. -/
theorem witness_RecompositionIsExactOrNearestEven :
    isFloatFmt float32 ∧ 0x7FFFFF < 2 ^ float32.fb ∧ (-(float32.bias : Int) - 1 ≤ -128 ∧ (-128 : Int) ≤ float32.bias) ∧
    ((127 : Int) ≤ float32.bias) ∧ (1 - (float32.bias : Int) ≤ -126) ∧ ((-127 : Int) < 1 - float32.bias) :=
  ⟨.inl rfl, by decide, by decide, by decide, by decide, by decide⟩

/-- A NaN, minus zero, and a subnormal; room and no room. -/
theorem witness_AddFloatWritesTheDecomposition :
    (0x7F800001 : BitVec 32).extractLsb' 23 8 = 255 ∧
    ((0x80000000 : BitVec 32).extractLsb' 23 8 ≠ 255 ∧ (0x80000000 : BitVec 32).extractLsb' 23 8 = 0 ∧
      (0x80000000 : BitVec 32).extractLsb' 0 23 = 0) ∧
    ((0x80000003 : BitVec 32).extractLsb' 23 8 ≠ 255 ∧
      ¬ ((0x80000003 : BitVec 32).extractLsb' 23 8 = 0 ∧ (0x80000003 : BitVec 32).extractLsb' 0 23 = 0)) ∧
    (codec [] 0).Inv ∧ (codec [] 0).Room 32 ∧
    ((capped 2 [0xFF, 0x03] 10).Inv ∧ 8 * 2 < (capped 2 [0xFF, 0x03] 10).cursor + 32) :=
  ⟨by decide, by decide, by decide, inv_empty, room_codec _ _ _, inv_partial, by decide⟩

/-- Readable and not. -/
theorem witness_ReadFloatGivesTheRecomposition :
    ((codec [0x05, 0x00, 0x00, 0x40, 0x00, 0x00, 0x00, 0x00] 0).Inv ∧
      (codec [0x05, 0x00, 0x00, 0x40, 0x00, 0x00, 0x00, 0x00] 0).Readable 32) ∧
    ((codec [0x48, 0x69, 0x00] 0).Inv ∧ ¬ (codec [0x48, 0x69, 0x00] 0).Readable 32) := by
  refine ⟨⟨inv_words, ?_⟩, inv_string, ?_⟩ <;> (unfold State.Readable; decide)

/-- An infinity, a zero and the least subnormal; room and no room. -/
theorem witness_AddDoubleWritesTheDecomposition :
    (0x7FF0000000000000 : BitVec 64).extractLsb' 52 11 = 2047 ∧
    ((0x0000000000000000 : BitVec 64).extractLsb' 52 11 ≠ 2047 ∧ (0x0000000000000000 : BitVec 64).extractLsb' 52 11 = 0 ∧
      (0x0000000000000000 : BitVec 64).extractLsb' 0 52 = 0) ∧
    ((0x0000000000000001 : BitVec 64).extractLsb' 52 11 ≠ 2047 ∧
      ¬ ((0x0000000000000001 : BitVec 64).extractLsb' 52 11 = 0 ∧
        (0x0000000000000001 : BitVec 64).extractLsb' 0 52 = 0)) ∧
    (codec [] 0).Inv ∧ (codec [] 0).Room 64 ∧
    ((capped 2 [0xFF, 0x03] 10).Inv ∧ 8 * 2 < (capped 2 [0xFF, 0x03] 10).cursor + 64) :=
  ⟨by decide, by decide, by decide, inv_empty, room_codec _ _ _, inv_partial, by decide⟩

/-- Readable and not. -/
theorem witness_ReadDoubleGivesTheRecomposition :
    ((codec [0x05, 0x00, 0x00, 0x40, 0x00, 0x00, 0x00, 0x00] 0).Inv ∧
      (codec [0x05, 0x00, 0x00, 0x40, 0x00, 0x00, 0x00, 0x00] 0).Readable 64) ∧
    ((codec [0x48, 0x69, 0x00] 0).Inv ∧ ¬ (codec [0x48, 0x69, 0x00] 0).Readable 64) := by
  refine ⟨⟨inv_words, ?_⟩, inv_string, ?_⟩ <;> (unfold State.Readable; decide)

/-- Both clauses. -/
theorem witness_ReadsNeverGiveInfinityNaNOrOne :
    (codec [0x05, 0x00, 0x00, 0x40, 0x00, 0x00, 0x00, 0x00] 0).Inv ∧
    (∃ t r, exec .readFloat (codec [0x05, 0x00, 0x00, 0x40, 0x00, 0x00, 0x00, 0x00] 0) = .next t ∧
      t.lastResponse = some r ∧ r.status = 0) ∧
    (∃ t r, exec .readDouble (codec [0x05, 0x00, 0x00, 0x40, 0x00, 0x00, 0x00, 0x00] 0) = .next t ∧
      t.lastResponse = some r ∧ r.status = 0) :=
  ⟨inv_words, ⟨_, _, rfl, rfl, rfl⟩, ⟨_, _, rfl, rfl, rfl⟩⟩

/-- A pattern for each clause: minus one, the largest finite number, and the subnormals on both sides of 2^21. -/
theorem witness_FloatRoundTrip :
    (∀ cap, (capped 4 [] 0).bufCap = some cap → 4 ≤ cap) ∧
    (0xBF800000 : BitVec 32).extractLsb' 23 8 ≠ 255 ∧
    ((0x7F7FFFFF : BitVec 32).extractLsb' 23 8 ≠ 255 ∧ (0x7F7FFFFF : BitVec 32).extractLsb' 23 8 ≠ 0 ∧
      (0x7F7FFFFF : BitVec 32) ≠ 0x3F800000 ∧ (0x7F7FFFFF : BitVec 32) ≠ 0xBF800000) ∧
    ((0x00200000 : BitVec 32).extractLsb' 23 8 = 0 ∧ 2 ^ 21 ≤ ((0x00200000 : BitVec 32).extractLsb' 0 23).toNat) ∧
    ((0x001FFFFF : BitVec 32).extractLsb' 23 8 = 0 ∧ (0x001FFFFF : BitVec 32).extractLsb' 0 23 ≠ 0 ∧
      ((0x001FFFFF : BitVec 32).extractLsb' 0 23).toNat < 2 ^ 21) :=
  ⟨by intro c h; cases h; decide, by decide, by decide, by decide, by decide⟩

/-- As above for binary64. -/
theorem witness_DoubleRoundTrip :
    (∀ cap, (capped 8 [] 0).bufCap = some cap → 8 ≤ cap) ∧
    (0xBFF0000000000000 : BitVec 64).extractLsb' 52 11 ≠ 2047 ∧
    ((0x7FEFFFFFFFFFFFFF : BitVec 64).extractLsb' 52 11 ≠ 2047 ∧ (0x7FEFFFFFFFFFFFFF : BitVec 64).extractLsb' 52 11 ≠ 0 ∧
      (0x7FEFFFFFFFFFFFFF : BitVec 64) ≠ 0x3FF0000000000000 ∧ (0x7FEFFFFFFFFFFFFF : BitVec 64) ≠ 0xBFF0000000000000) ∧
    ((0x0004000000000000 : BitVec 64).extractLsb' 52 11 = 0 ∧
      2 ^ 50 ≤ ((0x0004000000000000 : BitVec 64).extractLsb' 0 52).toNat) ∧
    ((0x0003FFFFFFFFFFFF : BitVec 64).extractLsb' 52 11 = 0 ∧ (0x0003FFFFFFFFFFFF : BitVec 64).extractLsb' 0 52 ≠ 0 ∧
      ((0x0003FFFFFFFFFFFF : BitVec 64).extractLsb' 0 52).toNat < 2 ^ 50) :=
  ⟨by intro c h; cases h; decide, by decide, by decide, by decide, by decide⟩

/-- The empty string; room and no room. -/
theorem witness_AddStringWritesCharactersAndTerminator :
    (codec [] 0).Inv ∧ (codec [] 0).Room (8 * (([] : List Byte).length + 1)) ∧
    ((capped 2 [0xFF, 0x03] 10).Inv ∧
      8 * 2 < (capped 2 [0xFF, 0x03] 10).cursor + 8 * (([] : List Byte).length + 1)) :=
  ⟨inv_empty, room_codec _ _ _, inv_partial, by decide⟩

/-- The three clauses: a terminator after two characters; two characters up to the end; a character cut off, the first and
a later one. -/
theorem witness_ReadStringStopsAtZeroOrEnd :
    ((codec [0x48, 0x69, 0x00] 0).Inv ∧ (∀ j, j < 2 → (codec [0x48, 0x69, 0x00] 0).charAt j ≠ 0) ∧
      (codec [0x48, 0x69, 0x00] 0).Readable (8 * (2 + 1)) ∧ (codec [0x48, 0x69, 0x00] 0).charAt 2 = 0) ∧
    ((∀ j, j < 2 → (codec [0x41, 0x42] 0).charAt j ≠ 0) ∧ (codec [0x41, 0x42] 0).Readable (8 * 2) ∧
      (codec [0x41, 0x42] 0).cursor + 8 * 2 = 8 * (codec [0x41, 0x42] 0).len) ∧
    (¬ (codec [0x05] 3).Readable (8 * (0 + 1)) ∧ (codec [0x05] 3).Readable (8 * 0)) ∧
    ((codec [0x83, 0x84] 1).Inv ∧ (∀ j, j < 1 → (codec [0x83, 0x84] 1).charAt j ≠ 0) ∧
      (codec [0x83, 0x84] 1).Readable (8 * 1) ∧ ¬ (codec [0x83, 0x84] 1).Readable (8 * (1 + 1)) ∧
      (codec [0x83, 0x84] 1).cursor + 8 * 1 < 8 * (codec [0x83, 0x84] 1).len) := by
  refine ⟨⟨inv_string, ?_, ?_, ?_⟩, ⟨?_, ?_, ?_⟩, ⟨?_, ?_⟩, inv_unaligned, ?_, ?_, ?_, ?_⟩ <;>
    first | decide | (unfold State.Readable; decide)

theorem witness_ReadStringResultHasNoZero :
    (codec [0x48, 0x69, 0x00] 0).Inv ∧
    ∃ t r, exec .readString (codec [0x48, 0x69, 0x00] 0) = .next t ∧ t.lastResponse = some r ∧ r.status = 0 ∧
      r.out.length < 2 ^ 64 := ⟨inv_string, _, _, rfl, rfl, rfl, by decide⟩

theorem witness_ReadStringTurnsSuffice : (codec [0x48, 0x69, 0x00] 0).len + 1 ≤ 4 := by decide

/-- The longest string a block of three bytes holds. -/
theorem witness_StringRoundTrip :
    (∀ c ∈ ([0x48, 0x69] : List Byte), c ≠ 0) ∧
    (∀ cap, (capped 3 [] 0).bufCap = some cap → ([0x48, 0x69] : List Byte).length + 1 ≤ cap) ∧
    ([0x48, 0x69] : List Byte).length < 2 ^ 64 := ⟨by decide, by intro c h; cases h; decide, by decide⟩

end Sys2Proof.Tests
end

section
/-! PROOFS. The family of spec/20_memory.md: what a read leaves alone and that it moves the cursor (R48). -/

namespace Sys2Proof.Machine

/-! ### The response a command ends with -/

@[simp] theorem answered_lastResponse (u : State) (v : Val) (out : List Byte) : (answered u v out).lastResponse =
    some { status := 0, errs := u.err.setWidth 8, value := v, out := out } := by
  simp [State.lastResponse]

@[simp] theorem takeFault_lastResponse (c : FaultCode) (out : List Byte) (s : State) :
    (takeFault c out s).lastResponse = some { status := c.status, errs := errsField (setFlag c s.err),
                                              value := Config.faultValue s.freeCount, out := out } := by
  simp [State.lastResponse]

/-- The codes of R170 are 1 to 5, so status 0 says that no fault was taken. -/
theorem FaultCode.status_ne_zero (c : FaultCode) : c.status ≠ 0 := by cases c <;> decide

theorem takeFault_ne_answered (c : FaultCode) (out out' : List Byte) (s u : State) (v : Val) :
    takeFault c out s ≠ answered u v out' := by
  intro h
  have hl := congrArg State.lastResponse h
  simp only [takeFault_lastResponse, answered_lastResponse, Option.some.injEq, Response.mk.injEq] at hl
  exact c.status_ne_zero hl.1

/-- A command that answers with status 0 ran to its end. -/
theorem finish_eq_answered {run : Run Result} {u : State} {v : Val} {out : List Byte}
    (h : finish run = .next (answered u v out)) : ∃ a t, run = .ok a t ∧ t.cursor = u.cursor := by
  cases run with
  | ok a t =>
    simp only [finish_ok, Host.Outcome.next.injEq] at h
    exact ⟨a, t, rfl, by simpa using congrArg State.cursor h⟩
  | raise c t =>
    simp only [finish_raise, Host.Outcome.next.injEq] at h
    exact absurd h (takeFault_ne_answered c [] out t u v)

theorem finishPayload_eq_answered {run : Run Result} {u : State} {v : Val} {out : List Byte}
    (h : finishPayload run = .next (answered u v out)) : ∃ a t, run = .ok a t ∧ t.cursor = u.cursor := by
  cases run with
  | ok a t => exact finish_eq_answered h
  | raise c t =>
    simp only [finishPayload_raise, Host.Outcome.next.injEq] at h
    exact absurd h (takeFault_ne_answered c _ out t u v)

/-! ### Reads that run to their end advance the cursor -/

/-- A part that moves the cursor forward by at least one bit whenever it raises nothing. -/
def Advances {α : Type} (run : State → Run α) : Prop :=
  ∀ s a t, run s = .ok a t → s.cursor < t.cursor

/-- What follows a part that advances has only to move forward, or stay. -/
theorem Advances.bind {α β : Type} {r : State → Run α} {q : α → State → Run β} (hr : Advances r)
    (hq : ∀ a t, t.cursor ≤ (q a t).state.cursor) : Advances (fun s => (r s).bind q) := by
  intro s b u h
  cases hrs : r s with
  | ok a t =>
    have hlast : q a t = .ok b u := by simpa only [hrs, Run.ok_bind] using h
    calc s.cursor < t.cursor := hr s a t hrs
      _ ≤ (q a t).state.cursor := hq a t
      _ = u.cursor := by rw [hlast, Run.state_ok]
  | raise c t => simp only [hrs, Run.raise_bind, reduceCtorEq] at h

/-- Turning the value read into the command's result moves nothing. -/
theorem Advances.port {α : Type} {r : State → Run α} (hr : Advances r) (port : α → Result) :
    Advances (fun s => (r s).bind fun a t => .ok (port a) t) :=
  hr.bind fun _ _ => Nat.le_refl _

theorem advances_readBit : Advances readBit := by
  intro s b t h
  rcases Nat.lt_or_ge (s.cursor / 8) s.len with hin | hout
  · rw [readBit_inside s hin] at h
    cases h
    exact Nat.lt_succ_self _
  · rw [readBit_outside s hout] at h
    cases h

/-- The width has to be 1 at least: a field of width 0 is no bit step, and `checkWidth` keeps it out (R64). -/
theorem advances_readU {n : Nat} (hn : 1 ≤ n) : Advances (readU n) := by
  obtain ⟨k, rfl⟩ := Nat.exists_eq_add_of_le' hn
  exact advances_readBit.bind fun b => (part_readBitsFrom k 1 _).cursor

theorem advances_readS (n : Nat) : Advances (readS n) :=
  advances_readBit.bind fun _ => ((part_readU (n - 1)).bind fun _ => part_ok _ _).cursor

theorem advances_readFloating (f : FloatFmt) : Advances (readFloating f) :=
  advances_readBit.bind fun _ =>
    ((part_readS f.eb).bind fun _ => (part_readU f.fb).bind fun _ => part_ok _ _).cursor

theorem advances_readChars (fuel : Nat) (acc : List Byte) : Advances (readChars (fuel + 1) acc) := by
  refine (advances_readU (by decide : 1 ≤ 8)).bind fun c t => ?_
  split
  · exact Nat.le_refl _
  · split
    · exact Nat.le_refl _
    · exact (part_readChars fuel _).cursor t

/-- A read command that ends with status 0 advances the cursor (R48). -/
theorem exec_read_advances (i : Instr) (hr : isRead i = true) (s u : State) (v : Val) (out : List Byte)
    (h : exec i s = .next (answered u v out)) : s.cursor < u.cursor := by
  have parts : ∀ run : State → Run Result, Advances run → exec i s = finish (run s) → s.cursor < u.cursor := by
    intro run hadv he
    obtain ⟨a, t, hrun, hc⟩ := finish_eq_answered (he ▸ h)
    exact hc ▸ hadv s a t hrun
  have faults : ∀ c, exec i s ≠ finish (.raise c s) := fun c he =>
    takeFault_ne_answered c [] out s u v (by simpa [he] using h)
  cases i with
  | readBit => exact parts _ (advances_readBit.port _) rfl
  | readUint w =>
    cases hw : widthLegal 1 w with
    | false => exact absurd (exec_readUint_illegal w hw s) (faults _)
    | true =>
      have h1 : 1 ≤ w.toNat := of_decide_eq_true (Bool.and_eq_true_iff.1 hw).1
      exact parts _ ((advances_readU h1).port _) (exec_readUint_legal w hw s)
  | readInt w =>
    cases hw : widthLegal 2 w with
    | false => exact absurd (exec_readInt_illegal w hw s) (faults _)
    | true => exact parts _ ((advances_readS w.toNat).port _) (exec_readInt_legal w hw s)
  | readFloat => exact parts _ ((advances_readFloating float32).port _) rfl
  | readDouble => exact parts _ ((advances_readFloating float64).port _) rfl
  | readString =>
    obtain ⟨a, t, hrun, hc⟩ := finishPayload_eq_answered h
    exact hc ▸ (advances_readChars s.len []).port _ s a t hrun
  | init | load _ | addBit _ | addUint _ _ | addInt _ _ | addFloat _ | addDouble _ | addString _ | getBuf =>
    simp [isRead] at hr

/-- The frame of a read, whichever way it ends (R48). -/
theorem exec_read_frame (i : Instr) (hr : isRead i = true) (s t : State) (ht : exec i s = .next t) :
    t = { s with cursor := t.cursor, err := t.err, responses := t.responses, freeCount := t.freeCount } := by
  obtain ⟨u, hu, -, ⟨v, out, rfl⟩ | ⟨c, out, rfl⟩⟩ := exec_read i hr s t ht
  all_goals rw [hu]; rfl

/-- Settles O21: a read's parts move only the cursor (`exec_read`), and one that raises nothing moves it by its first
bit step at least. -/
theorem readsChangeOnlyTheCursor : Obligations.ReadsChangeOnlyTheCursor := by
  intro i s t hr ht
  have hframe := exec_read_frame i hr s t ht
  refine ⟨hframe, fun r hl h0 => ?_, fun p => by rw [hframe]; rfl⟩
  obtain ⟨u, hu, -, ⟨v, out, rfl⟩ | ⟨c, out, rfl⟩⟩ := exec_read i hr s t ht
  · exact ⟨by rw [hu]; rfl, exec_read_advances i hr s u v out ht⟩
  · obtain rfl := Option.some.inj (takeFault_lastResponse c out u ▸ hl)
    exact absurd h0 c.status_ne_zero

end Sys2Proof.Machine
end

section
/-! PROOFS. The family of spec/30_encoding.md: a reserved opcode is rejected by the decoder and answered by its fault
(R63). -/

namespace Sys2Proof.Laws

/-- The opcode map has a row for 0x00 to 0x0E and no row above (R61, R63). -/
theorem decodeOp_reserved {op : BitVec 8} (hop : 0x0F ≤ op.toNat) (w : Width) (val : Val) (payload : List Byte) :
    decodeOp op w val payload = .error .illegalCommand := by
  unfold decodeOp
  split
  case h_16 => rfl
  all_goals omega

/-- A reserved word asks for no payload: the two opcodes that do are in the map (R63, R65). -/
theorem payloadCount_reserved {cw : CmdWord} (hop : 0x0F ≤ (fieldOp cw).toNat) : payloadCount cw = 0 := by
  have hload : fieldOp cw ≠ 0x01#8 := fun h => absurd hop (by rw [h]; decide)
  have haddString : fieldOp cw ≠ 0x0C#8 := fun h => absurd hop (by rw [h]; decide)
  simp [payloadCount, hload, haddString]

/-- The decoder rejects a reserved word without payload by the name of its fault, and not for its payload's length. -/
theorem decode_reserved {cw : CmdWord} (hop : 0x0F ≤ (fieldOp cw).toNat) :
    decode ⟨cw, []⟩ = .error .illegalCommand := by
  have hlength : ([] : List Byte).length = payloadCount cw := (payloadCount_reserved hop).symm
  calc decode ⟨cw, []⟩ = decodeOp (fieldOp cw) (fieldW cw) (fieldVal cw) [] := if_pos hlength
    _ = .error .illegalCommand := decodeOp_reserved hop _ _ _

end Sys2Proof.Laws

namespace Sys2Proof.Machine

/-- The step on a pair the decoder rejects: the pair is taken off `pending` and the rejection answered. -/
theorem step_of_decode_error {s : State} {c : HostCommand} {rest : List HostInput} {r : DecodeReject}
    (hp : s.pending = .command c :: rest) (hd : decode c = .error r) :
    step s = answerReject r { s with pending := rest } := by
  simp only [step, hp, hd]

/-- Settles O9: the decoder rejects the word by the name of the fault (`decode_reserved`), so the step takes the fault
in the state in which the word is no longer pending, and `takeFault_faulted` says what that changes. -/
theorem reservedOpcodesAnswerIllegalCommand : Obligations.ReservedOpcodesAnswerIllegalCommand := by
  intro s w rest hop hp
  exact ⟨_, step_of_decode_error hp (Laws.decode_reserved hop), takeFault_faulted .illegalCommand [] _⟩

end Sys2Proof.Machine
end

section
/-! PROOFS. The family of spec/40_cursor_buffer.md: getBuf gives the buffer's bytes (R92), addBit is one `WriteBit` (R95)
and readBit one `ReadBit` (R96). -/

namespace Sys2Proof.Machine

/-- A command that raises in the state it starts from changes nothing of the codec but the flag (R176). -/
theorem faultsAtOnce_of_exec_raise {i : Instr} {s : State} {c : FaultCode} (h : exec i s = finish (.raise c s)) :
    FaultsAtOnce i s c :=
  ⟨takeFault c [] s, h, takeFault_faulted c [] s⟩

/-! ### getBuf -/

/-- A count that fits the 64-bit field stands in it (R61). -/
theorem countValue_of_lt {n : Nat} (h : n < 2 ^ 64) : countValue n = BitVec.ofNat 64 n := if_pos h

/-- Settles O31: getBuf answers `s.bytes` and the count of `len` in the state it starts from (`exec_getBuf`). -/
theorem getBufGivesTheBytes : Obligations.GetBufGivesTheBytes := fun s =>
  ⟨countValue s.len, s.bytes, exec_getBuf s, length_bytes s, getD_bytes s, countValue_of_lt⟩

/-! ### addBit -/

theorem exec_addBit (b : Bool) (s : State) :
    exec (.addBit b) s = finish ((writeBit b s).bind fun _ t => .ok Result.none t) := rfl

/-- There is room for one bit exactly when the byte at the cursor is below the capacity (R93, R213). -/
theorem room_one_iff (s : State) : s.Room 1 ↔ ∀ cap, s.bufCap = some cap → s.cursor / 8 < cap :=
  forall₂_congr fun cap _ => by omega

/-- At a byte index at or above the capacity addBit ends where `WriteBit` raises, before any change (R93), in every
state. -/
theorem addBit_beyond {s : State} (b : Bool) {cap : Nat} (hc : s.bufCap = some cap) (h : cap ≤ s.cursor / 8) :
    FaultsAtOnce (.addBit b) s .bufferFull :=
  faultsAtOnce_of_exec_raise (by rw [exec_addBit, writeBit_beyond s b cap hc h, Run.raise_bind])

/-- Settles O32: below the capacity addBit writes the field of one bit (`writes_bit`, with room by `room_one_iff`); at or
above it `WriteBit` raises at once (`addBit_beyond`). -/
theorem addBitWritesOneBit : Obligations.AddBitWritesOneBit := by
  intro s b hi
  obtain ⟨hroom, -⟩ := finish_writes (writes_bit b) (exec_addBit b) s hi
  exact ⟨fun hbelow => hroom ((room_one_iff s).2 hbelow), fun _ hc hbeyond => addBit_beyond b hc hbeyond⟩

/-! ### readBit -/

theorem exec_readBit (s : State) :
    exec .readBit s = finish ((readBit s).bind fun b t => .ok { value := zext64 b.toNat, out := [] } t) := rfl

/-- A bit in `RW.value`, zero-extended (R61). -/
theorem zext64_toNat (b : Bool) : zext64 b.toNat = if b then 1 else 0 := by cases b <;> rfl

/-- Settles O33: the two ways of `ReadBit` (`readBit_inside`, `readBit_outside`), both in every state. -/
theorem readBitGivesTheBitAtTheCursor : Obligations.ReadBitGivesTheBitAtTheCursor := by
  refine fun s => ⟨fun hin => ?_, fun hout => faultsAtOnce_of_exec_raise ?_⟩
  · rw [exec_readBit, readBit_inside s hin, Run.ok_bind, finish_ok, zext64_toNat]
  · rw [exec_readBit, readBit_outside s hout, Run.raise_bind]

end Sys2Proof.Machine
end

section
/-! PROOFS. The family of spec/41_integer_packer.md: the width check (R64), then addUint is one `WriteU` (R111), addInt one
`WriteS` (R115) and readInt one `ReadS`, whose result is always within the range of its width (R117). -/

namespace Sys2Proof.Machine

/-! ### The width check -/

theorem widthLegal_eq_true_iff (lo : Nat) (bits : Width) :
    widthLegal lo bits = true ↔ lo ≤ bits.toNat ∧ bits.toNat ≤ 64 := by
  simp [widthLegal]

theorem widthLegal_eq_false_iff (lo : Nat) (bits : Width) :
    widthLegal lo bits = false ↔ bits.toNat < lo ∨ 64 < bits.toNat := by
  rw [← Bool.not_eq_true, widthLegal_eq_true_iff]
  omega

/-! ### Writing an integer -/

/-- Settles O34: with a legal width addUint writes the field of `writes_u`, whose bits are those of the value's pattern;
with an illegal one it raises at once. -/
theorem addUintWritesTheLowBits : Obligations.AddUintWritesTheLowBits := by
  refine fun s v bits => ⟨fun hi hlo hhi => ?_, fun hout => faultsAtOnce_of_exec_raise ?_⟩
  · have hlegal := (widthLegal_eq_true_iff 1 bits).2 ⟨hlo, hhi⟩
    exact finish_writes (writes_u v.toNat bits.toNat) (exec_addUint_legal v bits hlegal) s hi
  · exact exec_addUint_illegal v bits ((widthLegal_eq_false_iff 1 bits).2 hout) s

/-- Settles O36: with a legal width addInt writes the field of `writes_s`, sign first; with an illegal one it raises at
once. -/
theorem addIntWritesSignAndMagnitude : Obligations.AddIntWritesSignAndMagnitude := by
  refine fun s v bits => ⟨fun hi hlo hhi => ?_, fun hout => faultsAtOnce_of_exec_raise ?_⟩
  · have hlegal := (widthLegal_eq_true_iff 2 bits).2 ⟨hlo, hhi⟩
    have hwrites : Writes (writeS v.toInt bits.toNat) bits.toNat (signedFieldBit v.toInt) :=
      writes_s v.toInt bits.toNat (Nat.one_le_of_lt hlo)
    exact finish_writes hwrites (exec_addInt_legal v bits hlegal) s hi
  · exact exec_addInt_illegal v bits ((widthLegal_eq_false_iff 2 bits).2 hout) s

/-! ### Reading a signed integer -/

/-- A signed field of width `n` stands for a number in `[-(2^(n-1)), 2^(n-1) - 1]`, because its magnitude is a field of
`n - 1` bits (R117). -/
theorem signedFieldAt_range (s : State) (p n : Nat) :
    -(2 ^ (n - 1) : Int) ≤ s.signedFieldAt p n ∧ s.signedFieldAt p n ≤ (2 ^ (n - 1) : Int) - 1 := by
  have hmagnitude : (s.fieldAt (p + 1) (n - 1) : Int) < 2 ^ (n - 1) := by exact_mod_cast fieldAt_lt s (n - 1) (p + 1)
  unfold State.signedFieldAt
  cases s.bitAt p with
  | false => rw [if_neg Bool.false_ne_true]; omega
  | true => rw [if_pos rfl]; omega

/-- Settles O37: with a legal width readInt reads the field of `reads_s`, which is within range by `signedFieldAt_range`;
with an illegal one it raises at once. -/
theorem readIntGivesTheSignedField : Obligations.ReadIntGivesTheSignedField := by
  refine fun s bits => ⟨fun hi hlo hhi => ⟨?_, signedFieldAt_range s s.cursor bits.toNat⟩,
    fun hout => faultsAtOnce_of_exec_raise ?_⟩
  · have hlegal := (widthLegal_eq_true_iff 2 bits).2 ⟨hlo, hhi⟩
    exact finish_reads (reads_s bits.toNat (Nat.one_le_of_lt hlo)) (exec_readInt_legal bits hlegal) s hi.cursorInside
  · exact exec_readInt_illegal bits ((widthLegal_eq_false_iff 2 bits).2 hout) s

end Sys2Proof.Machine
end

section
/-! PROOFS. The family of spec/42_float_packer.md: addFloat and addDouble write one float field or raise at once (R133,
R141), and readFloat reads one (R137). Each fact is stated for a format `f` and used
at float32 and float64 (R10). -/

namespace Sys2Proof.Machine

/-! ### The fields of a pattern -/

/-- The exponent bits of the pattern word are the field `E` of R130 and R131. -/
theorem toNat_extractLsb'_exp {w : Nat} (f : FloatFmt) (P : BitVec w) :
    (P.extractLsb' f.fb f.eb).toNat = f.expOf P.toNat := by
  rw [BitVec.extractLsb'_toNat, Nat.shiftRight_eq_div_pow, FloatFmt.expOf]

/-- The low bits of the pattern word are the field `F` of R130 and R131. -/
theorem toNat_extractLsb'_frac {w : Nat} (f : FloatFmt) (P : BitVec w) :
    (P.extractLsb' 0 f.fb).toNat = f.fracOf P.toNat := by
  rw [BitVec.extractLsb'_toNat, Nat.shiftRight_zero, FloatFmt.fracOf]

/-- An infinity or a NaN has an exponent field of ones only (R174). -/
theorem unsupported_iff {w : Nat} (f : FloatFmt) (P : BitVec w) :
    f.unsupported P.toNat = true ↔ P.extractLsb' f.fb f.eb = BitVec.allOnes f.eb := by
  rw [BitVec.toNat_eq, toNat_extractLsb'_exp, BitVec.toNat_allOnes, FloatFmt.unsupported, beq_iff_eq]

/-- A zero has an exponent field and a fraction field of zeros (R133). -/
theorem isZero_iff {w : Nat} (f : FloatFmt) (P : BitVec w) :
    f.isZero P.toNat = true ↔ P.extractLsb' f.fb f.eb = 0 ∧ P.extractLsb' 0 f.fb = 0 := by
  rw [BitVec.toNat_eq, BitVec.toNat_eq, toNat_extractLsb'_exp, toNat_extractLsb'_frac, FloatFmt.isZero,
    Bool.and_eq_true_iff, beq_iff_eq, beq_iff_eq]
  rfl

/-! ### Writing a float -/

theorem addFloating_unsupported {f : FloatFmt} {p : Nat} (h : f.unsupported p = true) (s : State) :
    addFloating f p s = .raise .unsupportedFloat s := if_pos h

/-- What a command that writes the pattern `P` in the format `f` does (R133, R141): at float32 the clauses of O43, at
float64 those of O45, where the field of ones is 255 and 2047. -/
def WritesFloat {w : Nat} (i : Instr) (f : FloatFmt) (P : BitVec w) (s : State) : Prop :=
  (P.extractLsb' f.fb f.eb = BitVec.allOnes f.eb → FaultsAtOnce i s .unsupportedFloat) ∧
  (s.Inv → P.extractLsb' f.fb f.eb ≠ BitVec.allOnes f.eb →
    (P.extractLsb' f.fb f.eb = 0 → P.extractLsb' 0 f.fb = 0 → WritesField i s (1 + f.eb + f.fb) (fun _ => false)) ∧
    (¬ (P.extractLsb' f.fb f.eb = 0 ∧ P.extractLsb' 0 f.fb = 0) → WritesField i s (1 + f.eb + f.fb)
      (floatFieldBit f.eb (P.getLsbD (f.eb + f.fb)) (f.decomp P.toNat).1 (f.decomp P.toNat).2)))

/-- A command that is `addFloating` takes the branch its pattern's exponent and fraction fields name. -/
theorem writesFloat_of_exec {w : Nat} {i : Instr} {f : FloatFmt} {P : BitVec w} (he : 1 ≤ f.eb)
    (hexec : ∀ s, exec i s = finish ((addFloating f P.toNat s).bind fun _ t => .ok Result.none t)) (s : State) :
    WritesFloat i f P s := by
  refine ⟨fun hones => faultsAtOnce_of_exec_raise ?_, fun hi hfinite => ?_⟩
  · rw [hexec, addFloating_unsupported ((unsupported_iff f P).2 hones), Run.raise_bind]
  · have hu : f.unsupported P.toNat = false := Bool.eq_false_iff.2 (mt (unsupported_iff f P).1 hfinite)
    refine ⟨fun hexp hfrac => ?_, fun hnonzero => ?_⟩
    · have hz : f.isZero P.toNat = true := (isZero_iff f P).2 ⟨hexp, hfrac⟩
      exact finish_writes (writes_addFloating_zero f he P.toNat hu hz) hexec s hi
    · have hz : f.isZero P.toNat = false := Bool.eq_false_iff.2 (mt (isZero_iff f P).1 hnonzero)
      exact finish_writes (writes_addFloating f he P.toNat hu hz) hexec s hi

theorem exec_addFloat (P : BitVec 32) (s : State) :
    exec (.addFloat P) s = finish ((addFloating float32 P.toNat s).bind fun _ t => .ok Result.none t) := rfl

theorem exec_addDouble (P : BitVec 64) (s : State) :
    exec (.addDouble P) s = finish ((addFloating float64 P.toNat s).bind fun _ t => .ok Result.none t) := rfl

/-- Settles O43: addFloat is `addFloating` in the format of 8 exponent and 23 fraction bits (`writesFloat_of_exec`). -/
theorem addFloatWritesTheDecomposition : Obligations.AddFloatWritesTheDecomposition :=
  fun s P => writesFloat_of_exec (f := float32) (by decide) (exec_addFloat P) s

/-- Settles O45: addDouble is `addFloating` in the format of 11 exponent and 52 fraction bits (`writesFloat_of_exec`). -/
theorem addDoubleWritesTheDecomposition : Obligations.AddDoubleWritesTheDecomposition :=
  fun s P => writesFloat_of_exec (f := float64) (by decide) (exec_addDouble P) s

/-! ### Reading a float -/

/-- The value of a read float in `RW.value`, zero-extended (R61, R137). -/
theorem zext64_valueOf (f : FloatFmt) (sign : Bool) (e : Int) (n : Nat) :
    zext64 (f.valueOf sign e n) = if e = 0 ∧ n = 0 then 0 else BitVec.ofNat 64 (f.recomp sign e n) :=
  apply_ite zext64 _ _ _

/-- A command that is `readFloating` reads one float field: a zero, or what its three parts recompose to (R137, R145). -/
theorem readsField_of_exec_readFloating {i : Instr} {f : FloatFmt} (he : 1 ≤ f.eb)
    (hexec : ∀ s, exec i s = finish ((readFloating f s).bind fun p t => .ok { value := zext64 p, out := [] } t))
    {s : State} (hi : s.Inv) : ReadsField i s (1 + f.eb + f.fb)
      (if s.signedFieldAt (s.cursor + 1) f.eb = 0 ∧ s.fieldAt (s.cursor + 1 + f.eb) f.fb = 0 then 0
       else BitVec.ofNat 64 (f.recomp (s.bitAt s.cursor) (s.signedFieldAt (s.cursor + 1) f.eb)
        (s.fieldAt (s.cursor + 1 + f.eb) f.fb))) := by
  rw [← zext64_valueOf]
  exact finish_reads (reads_floating f he) hexec s hi.cursorInside

theorem exec_readFloat (s : State) :
    exec .readFloat s = finish ((readFloating float32 s).bind fun p t => .ok { value := zext64 p, out := [] } t) := rfl

/-- Settles O44: readFloat is `readFloating` in the format of 8 exponent and 23 fraction bits
(`readsField_of_exec_readFloating`). -/
theorem readFloatGivesTheRecomposition : Obligations.ReadFloatGivesTheRecomposition :=
  fun _ hi => readsField_of_exec_readFloating (f := float32) (by decide) exec_readFloat hi

end Sys2Proof.Machine
end

section
/-! PROOFS. The family of spec/43_string_packer.md: addString writes one string field (R160); readString goes turn by
turn over the characters at the cursor and ends at a zero character, at the end of the buffer, or in a character cut off
(R161); a string without a zero character survives a transfer (R163). -/

namespace Sys2Proof.Machine

/-! ### Writing a string -/

/-- Settles O50: addString writes the field of `writes_string`, the terminator included. -/
theorem addStringWritesCharactersAndTerminator : Obligations.AddStringWritesCharactersAndTerminator :=
  fun s chars hi => finish_writes (writes_string chars) (exec_addString chars) s hi

/-! ### The characters at the cursor -/

/-- The state readString's loop is in behind `k` characters: only the cursor has moved (R48). -/
def State.afterChars (s : State) (k : Nat) : State := { s with cursor := s.cursor + 8 * k }

@[simp] theorem afterChars_cursor (s : State) (k : Nat) : (s.afterChars k).cursor = s.cursor + 8 * k := rfl

theorem readable_afterChars (s : State) (k : Nat) : (s.afterChars k).Readable 8 ↔ s.Readable (8 * (k + 1)) := Iff.rfl

/-- The loop's test for the end of the buffer (R161), as positions. -/
theorem len_le_byteIndex_afterChars (s : State) (k : Nat) :
    s.len ≤ (s.afterChars k).byteIndex ↔ 8 * s.len ≤ s.cursor + 8 * k := by
  rw [State.byteIndex, afterChars_cursor]
  omega

@[simp] theorem length_charsAt (s : State) (k : Nat) : (s.charsAt k).length = k := by simp [State.charsAt]

theorem charsAt_succ (s : State) (k : Nat) : s.charsAt (k + 1) = s.charsAt k ++ [BitVec.ofNat 8 (s.charAt k)] := by
  simp [State.charsAt, List.range_succ]

/-! ### readString's loop -/

/-- The turn for a character that is readable: it ends at a zero character, at the end of the buffer, or not (R161). -/
theorem readChars_of_readable {s : State} {k : Nat} (hr : s.Readable (8 * (k + 1))) (fuel : Nat) :
    readChars (fuel + 1) (s.charsAt k) (s.afterChars k) =
      if s.charAt k = 0 then .ok (s.charsAt k) (s.afterChars (k + 1))
      else if 8 * s.len ≤ s.cursor + 8 * (k + 1) then .ok (s.charsAt (k + 1)) (s.afterChars (k + 1))
      else readChars fuel (s.charsAt (k + 1)) (s.afterChars (k + 1)) := by
  have hr' : (s.afterChars k).Readable 8 := (readable_afterChars s k).2 hr
  rw [readChars_succ, (reads_u 8 _ (Nat.le_of_add_right_le hr')).1 hr', Run.ok_bind, charsAt_succ]
  simp only [← len_le_byteIndex_afterChars]
  rfl

/-- The turn for a character that is cut off: its bit steps raise at the end of the buffer (R94, R161). -/
theorem readChars_of_not_readable {s : State} {k : Nat} (hread : s.Readable (8 * k)) (hr : ¬ s.Readable (8 * (k + 1)))
    (fuel : Nat) (acc : List Byte) :
    readChars (fuel + 1) acc (s.afterChars k) = .raise .outOfBounds { s with cursor := 8 * s.len } := by
  rw [readChars_succ, (reads_u 8 (s.afterChars k) hread).2 (mt (readable_afterChars s k).1 hr), Run.raise_bind]
  rfl

/-- The turns over `k` characters that are not zero and do not end the buffer. -/
theorem readChars_skip {s : State} {k : Nat} (hchars : ∀ j, j < k → s.charAt j ≠ 0)
    (hmore : k = 0 ∨ s.cursor + 8 * k < 8 * s.len) (fuel : Nat) :
    readChars (fuel + k) [] s = readChars fuel (s.charsAt k) (s.afterChars k) := by
  induction k generalizing fuel with
  | zero => rfl
  | succ k ih =>
    have hmore' : s.cursor + 8 * (k + 1) < 8 * s.len := hmore.resolve_left k.succ_ne_zero
    calc readChars (fuel + (k + 1)) [] s
        = readChars (fuel + 1 + k) [] s := by rw [Nat.add_assoc, Nat.add_comm 1 k]
      _ = readChars (fuel + 1) (s.charsAt k) (s.afterChars k) :=
        ih (fun j hj => hchars j (Nat.lt_succ_of_lt hj)) (.inr (by omega)) (fuel + 1)
      _ = readChars fuel (s.charsAt (k + 1)) (s.afterChars (k + 1)) := by
        rw [readChars_of_readable hmore'.le, if_neg (hchars k k.lt_succ_self), if_neg hmore'.not_ge]

/-! ### readString -/

theorem exec_readString (s : State) : exec .readString s = finishPayload
    ((readChars (s.len + 1) [] s).bind fun chars t => .ok { value := countValue chars.length, out := chars } t) := rfl

/-- readString after the turns of `readChars_skip`: of its `len + 1` turns at least one is left. -/
theorem exec_readString_skip {s : State} {k : Nat} (hchars : ∀ j, j < k → s.charAt j ≠ 0)
    (hmore : k = 0 ∨ s.cursor + 8 * k < 8 * s.len) : exec .readString s = finishPayload
      ((readChars (s.len - k + 1) (s.charsAt k) (s.afterChars k)).bind fun chars t =>
        .ok { value := countValue chars.length, out := chars } t) := by
  have hturns : s.len + 1 = s.len - k + 1 + k := by omega
  rw [exec_readString, hturns, readChars_skip hchars hmore]

/-- readString at `k` characters and a zero character: the characters are the result, the zero one is consumed. -/
theorem exec_readString_terminated {s : State} {k : Nat} (hchars : ∀ j, j < k → s.charAt j ≠ 0)
    (hr : s.Readable (8 * (k + 1))) (hzero : s.charAt k = 0) :
    exec .readString s = .next (answered (s.afterChars (k + 1)) (countValue k) (s.charsAt k)) := by
  have hmore : s.cursor + 8 * k < 8 * s.len := by
    unfold State.Readable at hr
    omega
  rw [exec_readString_skip hchars (.inr hmore), readChars_of_readable hr, if_pos hzero, Run.ok_bind, finishPayload_ok,
    length_charsAt]

/-- readString at `k + 1` characters that end the buffer: they are the result. -/
theorem exec_readString_at_end {s : State} {k : Nat} (hchars : ∀ j, j < k + 1 → s.charAt j ≠ 0)
    (hend : s.cursor + 8 * (k + 1) = 8 * s.len) :
    exec .readString s = .next (answered (s.afterChars (k + 1)) (countValue (k + 1)) (s.charsAt (k + 1))) := by
  have hmore : s.cursor + 8 * k < 8 * s.len := by omega
  rw [exec_readString_skip (fun j hj => hchars j (Nat.lt_succ_of_lt hj)) (.inr hmore),
    readChars_of_readable (Nat.le_of_eq hend), if_neg (hchars k k.lt_succ_self), if_pos hend.ge, Run.ok_bind,
    finishPayload_ok, length_charsAt]

/-- readString at `k` characters and fewer than eight bits for the next one: its bit steps raise. -/
theorem exec_readString_cut {s : State} {k : Nat} (hchars : ∀ j, j < k → s.charAt j ≠ 0)
    (hread : s.Readable (8 * k)) (hr : ¬ s.Readable (8 * (k + 1))) (hmore : k = 0 ∨ s.cursor + 8 * k < 8 * s.len) :
    ∃ out, exec .readString s = .next (takeFault .outOfBounds out { s with cursor := 8 * s.len }) :=
  ⟨_, by rw [exec_readString_skip hchars hmore, readChars_of_not_readable hread hr, Run.raise_bind,
    finishPayload_raise]⟩

/-- Settles O51: the `k` turns over the characters are `readChars_skip`, and the turn behind them ends in one of the
three ways. -/
theorem readStringStopsAtZeroOrEnd : Obligations.ReadStringStopsAtZeroOrEnd := by
  refine fun s k _ hchars hread => ⟨fun hr hzero => ?_, fun hk hend => ?_, fun hr hmore => ?_⟩
  · exact ⟨countValue k, countValue_of_lt, exec_readString_terminated hchars hr hzero⟩
  · obtain ⟨k, rfl⟩ := Nat.exists_eq_add_of_le' hk
    exact ⟨countValue (k + 1), countValue_of_lt, exec_readString_at_end hchars hend⟩
  · obtain ⟨out, hexec⟩ := exec_readString_cut hchars hread hr hmore
    exact ⟨_, out, hexec, takeFault_faulted .outOfBounds out _⟩

/-! ### The round trip -/

/-- Where the bits of a string field stand at the cursor, character `j` is the string's, and the one behind the last is
zero (R75). -/
theorem charAt_of_stringFieldBit {s : State} {chars : List Byte} {j : Nat}
    (hbits : ∀ i, i < 8 → s.bitAt (s.cursor + 8 * j + i) = stringFieldBit chars (8 * j + i)) :
    s.charAt j = (chars.getD j 0#8).toNat := by
  have hfield : s.charAt j = (chars.getD j 0#8).toNat % 2 ^ 8 := by
    refine fieldAt_eq_mod s _ 8 _ fun i hi => ?_
    have hbyte : (8 * j + i) / 8 = j := by omega
    have hbit : (8 * j + i) % 8 = i := by omega
    rw [hbits i hi, stringFieldBit, hbyte, hbit, BitVec.testBit_toNat]
  rw [hfield, Nat.mod_eq_of_lt (BitVec.isLt _)]

/-- The characters of a string field at the cursor are the string. -/
theorem charsAt_eq_of_charAt {s : State} {chars : List Byte}
    (h : ∀ j, j < chars.length → s.charAt j = (chars.getD j 0#8).toNat) : s.charsAt chars.length = chars := by
  refine List.ext_getElem (length_charsAt s _) fun j hj hj' => ?_
  rw [length_charsAt] at hj
  simp [State.charsAt, h j hj, List.getElem?_eq_getElem hj']

/-- Settles O54: after the transfer of the string field (`transfer`) its bits stand at position 0, so readString finds
the characters, none of them zero, and the terminator (`exec_readString_terminated`). -/
theorem stringRoundTrip : Obligations.StringRoundTrip := by
  intro s chars hchars hcap
  obtain ⟨t, g, v, hwrite, htcursor, hg, hstatus, hload, -, hvcursor, hvlen, hbits⟩ :=
    transfer (.addString chars) _ _ _ (writes_string chars) (exec_addString chars) s
      fun cap hc => Nat.mul_le_mul_left 8 (hcap cap hc)
  have hcharAt : ∀ j, j ≤ chars.length → v.charAt j = (chars.getD j 0#8).toNat := fun j hj =>
    charAt_of_stringFieldBit fun i hi => by rw [hvcursor, Nat.zero_add, hbits _ (by omega)]
  have hnonzero : ∀ j, j < chars.length → v.charAt j ≠ 0 := fun j hj => by
    rw [hcharAt j hj.le, List.getD_eq_getElem chars 0#8 hj]
    exact fun h => hchars _ (List.getElem_mem hj) (BitVec.eq_of_toNat_eq h)
  have hzero : v.charAt chars.length = 0 := by rw [hcharAt _ le_rfl, List.getD_eq_default _ _ le_rfl]; rfl
  have hr : v.Readable (8 * (chars.length + 1)) := by
    unfold State.Readable
    omega
  have hread := exec_readString_terminated hnonzero hr hzero
  rw [charsAt_eq_of_charAt fun j hj => hcharAt j hj.le] at hread
  have htransfer : execs [.load g.out, .readString] t =
      .next (answered (v.afterChars (chars.length + 1)) (countValue chars.length) chars) := by
    simp only [execs, hload, hread]
  have hucursor : (v.afterChars (chars.length + 1)).cursor = 8 * (chars.length + 1) := by
    rw [afterChars_cursor, hvcursor, Nat.zero_add]
  exact ⟨t, _, g, _, hwrite, htcursor, hg, hstatus, htransfer, hucursor, answered_lastResponse _ _ _, rfl, rfl,
    countValue_of_lt⟩

end Sys2Proof.Machine
end

section
/-! PROOFS. The family of spec/30_encoding.md on words: the decoder undoes the encoder and looks at the fields a command
uses only (R60 to R62, R65), and every word is a command or answers a fault (R84). -/

namespace Sys2Proof.Laws

/-! ### The decoder on packed words -/

/-- Every command carries its own row of the opcode map. -/
theorem opcodeRow (i : Instr) : OpcodeRow.Statement i := by
  cases i with
  | init => exact OpcodeRow.init
  | load payload => exact OpcodeRow.load payload
  | addBit value => exact OpcodeRow.addBit value
  | readBit => exact OpcodeRow.readBit
  | addUint value bits => exact OpcodeRow.addUint value bits
  | readUint bits => exact OpcodeRow.readUint bits
  | addInt value bits => exact OpcodeRow.addInt value bits
  | readInt bits => exact OpcodeRow.readInt bits
  | addFloat pattern => exact OpcodeRow.addFloat pattern
  | readFloat => exact OpcodeRow.readFloat
  | addDouble pattern => exact OpcodeRow.addDouble pattern
  | readDouble => exact OpcodeRow.readDouble
  | addString chars => exact OpcodeRow.addString chars
  | readString => exact OpcodeRow.readString
  | getBuf => exact OpcodeRow.getBuf

/-- A pair whose payload has the length its word asks for is decoded by the opcode map (R65). -/
theorem decode_of_length {c : HostCommand} (h : c.payload.length = payloadCount c.word) :
    decode c = decodeOp (fieldOp c.word) (fieldW c.word) (fieldVal c.word) c.payload := if_pos h

theorem decode_of_length_ne {c : HostCommand} (h : c.payload.length ≠ payloadCount c.word) :
    decode c = .error .payloadLength := if_neg h

/-- A length word is a value of the 64-bit field (R65). -/
theorem payloadCount_lt (cw : CmdWord) : payloadCount cw < 2 ^ 64 := by
  unfold payloadCount
  split
  · exact (fieldVal cw).isLt
  · decide

/-- What a packed word asks for, by its opcode (R61, R65). -/
theorem payloadCount_packWord (op : BitVec 8) (w : Width) (val : Val) :
    payloadCount (packWord op w val) = if op = 0x01#8 ∨ op = 0x0C#8 then val.toNat else 0 := by
  simp [payloadCount]

/-- A word of an opcode without a payload, with nothing on payload-in. -/
theorem decode_packWord_nil {op : BitVec 8} (hop : op ≠ 0x01#8 ∧ op ≠ 0x0C#8) (w : Width) (val : Val) :
    decode ⟨packWord op w val, []⟩ = decodeOp op w val [] := by
  have hlength : ([] : List Byte).length = payloadCount (packWord op w val) := by
    simp [payloadCount_packWord, hop]
  simpa using decode_of_length (c := ⟨packWord op w val, []⟩) hlength

/-- A word of load or addString, with the payload its `val` field asks for. -/
theorem decode_packWord_payload {op : BitVec 8} (hop : op = 0x01#8 ∨ op = 0x0C#8) (w : Width) {val : Val}
    {payload : List Byte} (h : payload.length = val.toNat) :
    decode ⟨packWord op w val, payload⟩ = decodeOp op w val payload := by
  have hlength : payload.length = payloadCount (packWord op w val) := by
    rw [payloadCount_packWord, if_pos hop, h]
  simpa using decode_of_length (c := ⟨packWord op w val, payload⟩) hlength

/-! ### The opcode map there and back -/

/-- The opcode map undoes the encoder's fields, whatever the operands (R61). -/
theorem decodeOp_encode (i : Instr) :
    decodeOp (opcode i) (encodeW i) (encodeVal i) (encodePayload i) = .ok i := by
  cases i with
  | addBit value => cases value <;> rfl
  | addFloat pattern =>
    have hlow : (pattern.setWidth 64).extractLsb' 0 32 = pattern := by
      refine BitVec.eq_of_getLsbD_eq fun k hk => ?_
      have hk' : k < 64 := by omega
      simp [hk, hk']
    exact congrArg (fun p => Except.ok (Instr.addFloat p)) hlow
  | init | load _ | readBit | addUint _ _ | readUint _ | addInt _ _ | readInt _ | readFloat | addDouble _ | readDouble
  | addString _ | readString | getBuf => rfl

/-- What the opcode map answers has the opcode it was asked for, and the payload where it has one. -/
theorem decodeOp_eq_ok {op : BitVec 8} {w : Width} {val : Val} {payload : List Byte} {i : Instr}
    (h : decodeOp op w val payload = .ok i) :
    op = opcode i ∧ encodePayload i = if op = 0x01#8 ∨ op = 0x0C#8 then payload else [] := by
  unfold decodeOp at h
  split at h
  case h_16 => cases h
  all_goals
    rename_i hnumber
    cases h
    refine ⟨BitVec.eq_of_toNat_eq hnumber, ?_⟩
    simp [BitVec.toNat_eq, hnumber, encodePayload]

/-- Settles O1: the command's word has the length of its payload (`opcodeRow`), so the opcode map is asked for the
encoder's own fields (`decodeOp_encode`). -/
theorem decodeOfEncodeIsTheCommand : Obligations.DecodeOfEncodeIsTheCommand := by
  intro i hfits
  obtain ⟨-, -, hlength⟩ := opcodeRow i
  have hdecode := decode_of_length (hlength hfits).symm
  simp only [encode, fieldOp_packWord, fieldW_packWord, fieldVal_packWord] at hdecode
  exact hdecode.trans (decodeOp_encode i)

/-- Settles O2: the pair's length check passed, so its opcode field is the answer's opcode and its payload the answer's
(`decodeOp_eq_ok`), below 2^64 bytes as any length word. -/
theorem decodedPairAgreesWithEncodedPair : Obligations.DecodedPairAgreesWithEncodedPair := by
  intro c i hdecode
  by_cases hlength : c.payload.length = payloadCount c.word
  · rw [decode_of_length hlength] at hdecode
    obtain ⟨hop, hpayload⟩ := decodeOp_eq_ok hdecode
    have hsame : c.payload = encodePayload i := by
      rw [hpayload]
      split
      · rfl
      · rename_i hnone
        exact List.length_eq_zero_iff.1 (hlength.trans (if_neg hnone))
    exact ⟨hop, hsame, decodeOfEncodeIsTheCommand i (hsame ▸ hlength ▸ payloadCount_lt c.word)⟩
  · rw [decode_of_length_ne hlength] at hdecode
    cases hdecode

end Sys2Proof.Laws

namespace Sys2Proof.Machine

/-! ### One step on a pending pair -/

/-- The step on a pair that decodes: the command, in the state in which the pair is taken off `pending` (R69). -/
theorem step_of_decode_ok {s : State} {c : HostCommand} {rest : List HostInput} {i : Instr}
    (hp : s.pending = .command c :: rest) (hd : decode c = .ok i) : step s = exec i { s with pending := rest } := by
  simp only [step, hp, hd]

/-- A step looks at a pending pair through the decoder only (R62). -/
theorem step_command_congr (s : State) {c c' : HostCommand} (rest : List HostInput) (h : decode c = decode c') :
    step { s with pending := .command c :: rest } = step { s with pending := .command c' :: rest } := by
  cases hd : decode c' with
  | ok i => rw [step_of_decode_ok rfl (h.trans hd), step_of_decode_ok rfl hd]
  | error r => rw [step_of_decode_error rfl (h.trans hd), step_of_decode_error rfl hd]

/-! ### Fields a command does not use -/

@[simp] theorem fieldW_encode (i : Instr) : fieldW (encode i).word = encodeW i := Laws.fieldW_packWord _ _ _

@[simp] theorem fieldVal_encode (i : Instr) : fieldVal (encode i).word = encodeVal i := Laws.fieldVal_packWord _ _ _

/-- Only the four integer commands with a width have one in their word (R61, R62). -/
theorem encodeW_eq_zero {i : Instr} (haddUint : ∀ v b, i ≠ .addUint v b) (hreadUint : ∀ b, i ≠ .readUint b)
    (haddInt : ∀ v b, i ≠ .addInt v b) (hreadInt : ∀ b, i ≠ .readInt b) : encodeW i = 0 := by
  cases i with
  | addUint v b => exact absurd rfl (haddUint v b)
  | readUint b => exact absurd rfl (hreadUint b)
  | addInt v b => exact absurd rfl (haddInt v b)
  | readInt b => exact absurd rfl (hreadInt b)
  | init | load _ | addBit _ | readBit | addFloat _ | readFloat | addDouble _ | readDouble | addString _ | readString
  | getBuf => rfl

/-- The reads, init and getBuf use no value (R61, R62). -/
theorem encodeVal_eq_zero {i : Instr} (h : isRead i = true ∨ i = .init ∨ i = .getBuf) : encodeVal i = 0 := by
  cases i with
  | init | readBit | readUint _ | readInt _ | readFloat | readDouble | readString | getBuf => rfl
  | load _ | addBit _ | addUint _ _ | addInt _ _ | addFloat _ | addDouble _ | addString _ => simp [isRead] at h

/-- A number below `2^m` has no bit from `m` on. -/
theorem getLsbD_eq_false_of_lt {w m k : Nat} {x : BitVec w} (hx : x.toNat < 2 ^ m) (hk : m ≤ k) :
    x.getLsbD k = false :=
  Nat.testBit_lt_two_pow (hx.trans_le (Nat.pow_le_pow_right (by decide) hk))

/-- Settles O3: the words of each opcode go through the opcode map whatever stands in the other fields
(`decode_packWord_nil`, `decode_packWord_payload`), a step sees the pair through the decoder only
(`step_command_congr`), and the encoder's fields are those of `encodeW` and `encodeVal`. -/
theorem unusedFieldsAreIgnored : Obligations.UnusedFieldsAreIgnored := by
  refine ⟨fun w val => ?_, fun w val payload hlength => ?_, fun s c c' rest h => step_command_congr s rest h,
    fun i => ⟨fun h1 h2 h3 h4 => ?_, fun h => ?_, fun b hi k hk => ?_, fun p hi k hk => ?_⟩⟩
  · refine ⟨?_, ?_, ?_, ?_, ?_, ?_, ?_, ?_, ?_, ?_, ?_, ?_, ?_⟩
    all_goals exact Laws.decode_packWord_nil (by decide) w val
  · exact ⟨Laws.decode_packWord_payload (.inl rfl) w hlength, Laws.decode_packWord_payload (.inr rfl) w hlength⟩
  · rw [fieldW_encode, encodeW_eq_zero h1 h2 h3 h4]
  · rw [fieldVal_encode, encodeVal_eq_zero h]
  · rw [fieldVal_encode, hi]
    exact getLsbD_eq_false_of_lt (m := 1) (by cases b <;> decide) hk
  · rw [fieldVal_encode, hi]
    have hlow : (encodeVal (.addFloat p)).toNat = p.toNat := by
      simp only [encodeVal, BitVec.toNat_setWidth]
      exact Nat.mod_eq_of_lt (by have := p.isLt; omega)
    exact getLsbD_eq_false_of_lt (m := 32) (hlow ▸ p.isLt) hk

/-! ### Every word is a command or answers a fault -/

/-- A command that decoded with a payload below 2^64 bytes keeps the contracts, or its width is illegal and it raises
IllegalWidth in the state it starts from (R64, R173). -/
theorem wellFormed_or_exec_illegalWidth {i : Instr} (hfits : (encodePayload i).length < 2 ^ 64) :
    WellFormed i = true ∨ ∀ s, exec i s = finish (.raise .illegalWidth s) := by
  cases i with
  | addUint v w =>
    cases hw : widthLegal 1 w with
    | true => exact .inl hw
    | false => exact .inr (exec_addUint_illegal v w hw)
  | readUint w =>
    cases hw : widthLegal 1 w with
    | true => exact .inl hw
    | false => exact .inr (exec_readUint_illegal w hw)
  | addInt v w =>
    cases hw : widthLegal 2 w with
    | true => exact .inl hw
    | false => exact .inr (exec_addInt_illegal v w hw)
  | readInt w =>
    cases hw : widthLegal 2 w with
    | true => exact .inl hw
    | false => exact .inr (exec_readInt_illegal w hw)
  | load payload => exact .inl (decide_eq_true hfits)
  | addString chars => exact .inl (decide_eq_true hfits)
  | init | addBit _ | readBit | addFloat _ | readFloat | addDouble _ | readDouble | readString | getBuf => exact .inl rfl

/-- With the length agreed the decoder rejects a reserved opcode only. -/
theorem decode_eq_error {c : HostCommand} {r : DecodeReject} (h : c.payload.length = payloadCount c.word)
    (hd : decode c = .error r) : r = .illegalCommand := by
  rw [Laws.decode_of_length h] at hd
  unfold decodeOp at hd
  split at hd <;> cases hd
  rfl

/-- Settles O4: a pair that decodes is well-formed or answers IllegalWidth (`wellFormed_or_exec_illegalWidth`), one that
does not has a reserved opcode. -/
theorem everyWordIsACommandOrAnswersAFault : Obligations.EveryWordIsACommandOrAnswersAFault := by
  intro s c rest hp hlength
  cases hd : decode c with
  | error r =>
    obtain rfl := decode_eq_error hlength hd
    exact .inr (.inl ⟨_, step_of_decode_error hp hd, takeFault_faulted .illegalCommand [] _⟩)
  | ok i =>
    obtain ⟨-, hpayload, -⟩ := Laws.decodedPairAgreesWithEncodedPair c i hd
    have hfits : (encodePayload i).length < 2 ^ 64 := hpayload ▸ hlength ▸ Laws.payloadCount_lt c.word
    rcases wellFormed_or_exec_illegalWidth hfits with hwf | hraise
    · exact .inl ⟨i, rfl, hwf⟩
    · exact .inr (.inr ⟨_, (step_of_decode_ok hp hd).trans (hraise _), takeFault_faulted .illegalWidth [] _⟩)

/-- Settles O5: the words are closed, and the decoder is evaluated on them. -/
theorem wordsOfTheVectorsDecode : Obligations.WordsOfTheVectorsDecode := by
  unfold Obligations.WordsOfTheVectorsDecode
  decide

/-- Settles O6: a response word is packed as a command word is, with the status in the place of the opcode
(`fieldOp_packWord` and its two companions). -/
theorem responseWordHasItsFields : Obligations.ResponseWordHasItsFields := fun r =>
  ⟨Laws.fieldOp_packWord r.status r.errs r.value, Laws.fieldW_packWord r.status r.errs r.value,
    Laws.fieldVal_packWord r.status r.errs r.value⟩

end Sys2Proof.Machine
end

section
/-! PROOFS. One step of the machine (R69, R200, R212) and the commands that make a new codec: init (R90) and load (R91). -/

namespace Sys2Proof.Machine

/-! ### A step by what is pending -/

theorem step_idle {s : State} (hp : s.pending = []) : step s = .next s := by simp only [step, hp, idle]

theorem step_reset {s : State} {during : Option HostCommand} {rest : List HostInput}
    (hp : s.pending = .reset during :: rest) : step s = .next (makeEmpty { s with pending := rest }) := by
  simp only [step, hp, applyReset]

/-- Every command ends with a next state (R49, R69). -/
theorem exec_next (i : Instr) (s : State) : ∃ t, exec i s = .next t := by
  cases i with
  | init => exact ⟨_, exec_init s⟩
  | getBuf => exact ⟨_, exec_getBuf s⟩
  | readString => exact finishPayload_next _
  | load _ | addBit _ | readBit | addUint _ _ | readUint _ | addInt _ _ | readInt _ | addFloat _ | readFloat
  | addDouble _ | readDouble | addString _ => exact finish_next _

/-- Settles O7: the branch of `step` for a pair that decodes. -/
theorem stepRunsTheDecodedCommand : Obligations.StepRunsTheDecodedCommand :=
  fun _ _ _ _ hp hd => step_of_decode_ok hp hd

/-- A table word is read as the decoder reads the pair it is placed as. -/
theorem decode_tableCommand {nbits w : Nat} {i : Instr} (h : decodeTableWord nbits w = some i) :
    decode (tableCommand nbits w) = .ok i := by
  rw [Laws.decodeTableWord_eq_decode] at h
  cases hd : decode (tableCommand nbits w) with
  | ok j =>
    rw [hd] at h
    exact congrArg Except.ok (Option.some.inj h)
  | error r =>
    rw [hd] at h
    cases h

/-- Settles O8: the placed pair is the next item, and taking it off `pending` gives the original state back. -/
theorem placedTableWordRunsNext : Obligations.PlacedTableWordRunsNext := fun s nbits w _ h =>
  step_of_decode_ok (s := s.withFetchWord nbits w) rfl (decode_tableCommand h)

/-- Settles O10: a wrong length is what the decoder rejects by the name `payloadLength`, and of a pair with the right
length it rejects a reserved opcode only (`decode_eq_error`), which is answered. -/
theorem onlyAPayloadOfWrongLengthIsRefused : Obligations.OnlyAPayloadOfWrongLengthIsRefused := by
  refine fun s c rest hp => ⟨fun hlength => ?_, fun hlength => ?_⟩
  · exact step_of_decode_error hp (Laws.decode_of_length_ne hlength)
  · cases hd : decode c with
    | ok i =>
      rw [step_of_decode_ok hp hd]
      exact exec_next i _
    | error r =>
      obtain rfl := decode_eq_error hlength hd
      exact ⟨_, step_of_decode_error hp hd⟩

/-- Settles O12: with nothing pending `step` waits. -/
theorem withNothingIssuedTheBlockWaits : Obligations.WithNothingIssuedTheBlockWaits := fun _ hp => step_idle hp

/-! ### init and reset -/

/-- Settles O11: a reset leaves `makeEmpty` of the state without the input (`step_reset`), and init answers from
`makeEmpty` (`exec_init`). -/
theorem resetIsTheEmptyCodec : Obligations.ResetIsTheEmptyCodec :=
  ⟨⟨rfl, rfl, rfl, rfl⟩, fun _ _ _ hp => step_reset hp, exec_init⟩

/-- Settles O13: no byte, and the cursor at 0 (`reset_inv`). -/
theorem resetMeetsTheInvariant : Obligations.ResetMeetsTheInvariant := reset_inv

/-- Settles O29: init answers from `makeEmpty` (`exec_init`), which is what a reset leaves (`step_reset`). -/
theorem initMakesAnEmptyCodec : Obligations.InitMakesAnEmptyCodec := fun s =>
  ⟨_, exec_init s, rfl, rfl, rfl, Memory.read_nil, rfl, rfl, fun _ _ => ⟨_, step_reset rfl, rfl, rfl, rfl, rfl⟩⟩

/-! ### load -/

theorem tooLong_eq_false_iff (s : State) (n : Nat) :
    s.tooLong n = false ↔ ∀ cap, s.bufCap = some cap → n ≤ cap := by
  unfold State.tooLong
  cases s.bufCap with
  | none => simp
  | some cap => simp

/-- A payload longer than the capacity raises before any change (R91). -/
theorem exec_load_tooLong {s : State} {payload : List Byte} (h : s.tooLong payload.length = true) :
    exec (.load payload) s = finish (.raise .bufferFull s) := by
  simp [exec, execLoad, h]

/-- Settles O30: a payload that fits is what the loaded codec reads (`exec_load_fits`, `Memory.read_ofBytes`), a longer
one raises at once (`exec_load_tooLong`). -/
theorem loadReplacesTheCodec : Obligations.LoadReplacesTheCodec := by
  refine fun s payload => ⟨fun hfits => ?_, fun cap hc hlong => faultsAtOnce_of_exec_raise (exec_load_tooLong ?_)⟩
  · exact ⟨_, exec_load_fits s payload ((tooLong_eq_false_iff s _).2 hfits), rfl, rfl, rfl, Memory.wf_ofBytes payload,
      Memory.read_ofBytes payload, rfl, rfl⟩
  · rw [← Bool.not_eq_false, tooLong_eq_false_iff]
    exact fun hfits => hlong.not_ge (hfits cap hc)

end Sys2Proof.Machine
end

section
/-! PROOFS. What every command does to the state as a whole: it answers once (R49, R66), its flags are sticky (R25, R179),
it keeps the invariant (R22, R23, R26), and it moves forward through the buffer (R27, R28, R46, R47, R77, R211). -/

namespace Sys2Proof.Machine

/-! ### How a command ends -/

/-- The end of a command whose codec is `u`: it answers with status 0, or takes a fault. -/
def Ended (u t : State) : Prop := (∃ v out, t = answered u v out) ∨ (∃ c out, t = takeFault c out u)

/-- Ending a command changes no bit, no length and no position. -/
theorem Ended.codec {u t : State} (h : Ended u t) : t.buf = u.buf ∧ t.len = u.len ∧ t.cursor = u.cursor := by
  rcases h with ⟨v, out, rfl⟩ | ⟨c, out, rfl⟩ <;> exact ⟨rfl, rfl, rfl⟩

theorem Ended.inv {u t : State} (h : Ended u t) (hi : u.Inv) : t.Inv := by
  rcases h with ⟨v, out, rfl⟩ | ⟨c, out, rfl⟩
  · exact inv_answered hi v out
  · exact inv_takeFault hi c out

/-- A command that makes a new codec ends with the new one, or takes BufferFull in the state it starts from (R90, R91). -/
theorem exec_construction {i : Instr} {s t : State} (hc : isConstruction i = true) (ht : exec i s = .next t) :
    (∃ u, t = answered u 0 [] ∧
      (u = makeEmpty s ∨ ∃ bytes, s.tooLong bytes.length = false ∧ u = makeLoaded bytes s)) ∨
    (t = takeFault .bufferFull [] s ∧ s.bufCap ≠ none) := by
  cases i with
  | init => exact .inl ⟨_, Host.Outcome.next.inj (ht.symm.trans (exec_init s)), .inl rfl⟩
  | load payload =>
    cases hlong : s.tooLong payload.length with
    | false =>
      have he := exec_load_fits s payload hlong
      exact .inl ⟨_, Host.Outcome.next.inj (ht.symm.trans he), .inr ⟨payload, hlong, rfl⟩⟩
    | true =>
      have he := exec_load_tooLong hlong
      refine .inr ⟨Host.Outcome.next.inj (ht.symm.trans he), fun hnone => ?_⟩
      simp [State.tooLong, hnone] at hlong
  | addBit _ | readBit | addUint _ _ | readUint _ | addInt _ _ | readInt _ | addFloat _ | readFloat | addDouble _
  | readDouble | addString _ | readString | getBuf => simp [isConstruction] at hc

/-- The codec `u` a command leaves, and its end `t`: a construction that succeeds clears the flags, nothing else touches
them before the end, and BufferFull needs a finite capacity. -/
structure Completes (i : Instr) (s u t : State) : Prop where
  frame : u = { s with buf := u.buf, len := u.len, cursor := u.cursor, err := u.err }
  answer : (u.err = (if isConstruction i then 0 else s.err) ∧ ∃ v out, t = answered u v out) ∨
    (u.err = s.err ∧ ∃ c out, t = takeFault c out u ∧ (c = .bufferFull → s.bufCap ≠ none))

theorem Completes.ended {i : Instr} {s u t : State} (h : Completes i s u t) : Ended u t :=
  h.answer.imp (fun ⟨_, hans⟩ => hans) fun ⟨_, c, out, hfault, _⟩ => ⟨c, out, hfault⟩

/-- The inversion of `exec` for every command, in every state. -/
theorem exec_completes (i : Instr) (s t : State) (ht : exec i s = .next t) : ∃ u, Completes i s u t := by
  cases hc : isConstruction i with
  | true =>
    rcases exec_construction hc ht with ⟨u, hans, rfl | ⟨bytes, -, rfl⟩⟩ | ⟨hfault, hcap⟩
    · exact ⟨_, rfl, .inl ⟨by rw [hc]; rfl, 0, [], hans⟩⟩
    · exact ⟨_, rfl, .inl ⟨by rw [hc]; rfl, 0, [], hans⟩⟩
    · exact ⟨s, rfl, .inr ⟨rfl, .bufferFull, [], hfault, fun _ => hcap⟩⟩
  | false =>
    obtain ⟨u, h⟩ := exec_ends i s t hc ht
    have herr : u.err = s.err := by rw [h.frame]
    have hframe : u = { s with buf := u.buf, len := u.len, cursor := u.cursor, err := u.err } := by rw [h.frame]
    exact ⟨u, hframe, h.answer.imp (fun hans => ⟨by rw [hc]; exact herr, hans⟩) fun hfault => ⟨herr, hfault⟩⟩

/-! ### One response, and a legal one -/

theorem FaultCode.toNat_status (c : FaultCode) : c.status.toNat = c.number := by cases c <;> rfl

/-- The five flags leave the upper bits of `RW.errs` zero (R66). -/
theorem errsField_lt (e : BitVec 5) : (errsField e).toNat < 32 := by
  have := e.isLt
  rw [errsField, BitVec.toNat_setWidth]
  omega

/-- Ending a command gives one response, a legal one, and leaves the host's other channels and the capacity alone. -/
theorem Ended.response {u t : State} (h : Ended u t) : t.pending = u.pending ∧ t.bufCap = u.bufCap ∧
    ∃ r, t.responses = u.responses ++ [r] ∧ r.Legal ∧ r.errs = t.err.setWidth 8 := by
  rcases h with ⟨v, out, rfl⟩ | ⟨c, out, rfl⟩
  · exact ⟨rfl, rfl, _, rfl, ⟨Nat.zero_le 5, errsField_lt _⟩, rfl⟩
  · have hstatus : c.status.toNat ≤ 5 := by cases c <;> decide
    exact ⟨rfl, rfl, _, rfl, ⟨hstatus, errsField_lt _⟩, rfl⟩

/-- Settles O15: a command's parts leave the host's side alone (`exec_completes`), and its end gives one response. -/
theorem everyCommandAnswersOnce : Obligations.EveryCommandAnswersOnce := by
  intro i s
  obtain ⟨t, ht⟩ := exec_next i s
  obtain ⟨u, hu⟩ := exec_completes i s t ht
  obtain ⟨hpending, hcap, r, hresponses, hlegal, herrs⟩ := hu.ended.response
  rw [hu.frame] at hpending hcap hresponses
  exact ⟨t, r, ht, hresponses, hlegal, herrs, hpending, hcap⟩

/-- Adding a legal response to legal ones. -/
theorem legal_append {rs rs' : List Response} (hlegal : ∀ r ∈ rs, r.Legal)
    (h : ∃ r, rs' = rs ++ [r] ∧ r.Legal) : ∀ r ∈ rs', r.Legal := by
  obtain ⟨r, rfl, hr⟩ := h
  intro r' hmem
  rcases List.mem_append.1 hmem with hold | hnew
  · exact hlegal r' hold
  · rw [List.mem_singleton.1 hnew]
    exact hr

/-- Settles O16: a step adds no response, or the one legal response of a command (O15) or of a reserved opcode's fault. -/
theorem responsesStayLegal : Obligations.ResponsesStayLegal := by
  intro s t hlegal ht
  match hp : s.pending with
  | [] =>
    obtain rfl := Host.Outcome.next.inj ((step_idle hp).symm.trans ht)
    exact hlegal
  | .reset during :: rest =>
    obtain rfl := Host.Outcome.next.inj ((step_reset hp).symm.trans ht)
    exact hlegal
  | .command c :: rest =>
    cases hd : decode c with
    | ok i =>
      obtain ⟨t', r, ht', hr, hrlegal, -⟩ := everyCommandAnswersOnce i { s with pending := rest }
      obtain rfl := Host.Outcome.next.inj (((step_of_decode_ok hp hd).trans ht').symm.trans ht)
      exact legal_append hlegal ⟨r, hr, hrlegal⟩
    | error e =>
      have hstep := (step_of_decode_error hp hd).symm.trans ht
      cases e with
      | payloadLength => cases hstep
      | illegalCommand =>
        obtain rfl := Host.Outcome.next.inj hstep
        have hended : Ended { s with pending := rest } _ := .inr ⟨.illegalCommand, [], rfl⟩
        obtain ⟨-, -, r, hr, hrlegal, -⟩ := hended.response
        exact legal_append hlegal ⟨r, hr, hrlegal⟩

/-! ### The flags -/

/-- Settles O22: a command's flags are those it starts from, or cleared by a construction, until it ends; a fault then
sets its own (`takeFault_faulted`). -/
theorem flagsAreSticky : Obligations.FlagsAreSticky := by
  intro i s t r ht hr
  obtain ⟨u, -, ⟨herr, v, out, rfl⟩ | ⟨herr, c, out, rfl, -⟩⟩ := exec_completes i s t ht
  · obtain rfl := Option.some.inj ((answered_lastResponse u v out).symm.trans hr)
    exact ⟨fun hne => absurd rfl hne, fun _ => herr⟩
  · obtain rfl := Option.some.inj ((takeFault_lastResponse c out u).symm.trans hr)
    refine ⟨fun _ k hk => ?_, fun h0 => absurd h0 c.status_ne_zero⟩
    rw [(takeFault_faulted c out u).flags k hk, herr, c.toNat_status]

/-- From other flags a command ends with the same codec `u` and in the same way. -/
theorem exec_withErr {i : Instr} {s t : State} (ht : exec i s = .next t) (e : BitVec 5) :
    ∃ u e' t', exec i (s.withErr e) = .next t' ∧ u.responses = s.responses ∧
      ((∃ v out, t = answered u v out ∧ t' = answered (u.withErr e') v out) ∨
        (∃ c out, t = takeFault c out u ∧ t' = takeFault c out (u.withErr e'))) := by
  cases i with
  | init =>
    obtain rfl := Host.Outcome.next.inj ((exec_init s).symm.trans ht)
    exact ⟨makeEmpty s, 0, _, exec_init _, rfl, .inl ⟨0, [], rfl, rfl⟩⟩
  | load payload =>
    cases hlong : s.tooLong payload.length with
    | false =>
      obtain rfl := Host.Outcome.next.inj ((exec_load_fits s payload hlong).symm.trans ht)
      exact ⟨makeLoaded payload s, 0, _, exec_load_fits (s.withErr e) payload hlong, rfl, .inl ⟨0, [], rfl, rfl⟩⟩
    | true =>
      obtain rfl := Host.Outcome.next.inj ((exec_load_tooLong hlong).symm.trans ht)
      exact ⟨s, e, _, exec_load_tooLong (s := s.withErr e) hlong, rfl, .inr ⟨.bufferFull, [], rfl, rfl⟩⟩
  | addBit _ | readBit | addUint _ _ | readUint _ | addInt _ _ | readInt _ | addFloat _ | readFloat | addDouble _
  | readDouble | addString _ | readString | getBuf =>
    obtain ⟨u, h⟩ := exec_ends _ s t rfl ht
    obtain ⟨t', ht', hsame⟩ := h.flags e
    exact ⟨u, e, t', ht', by rw [h.frame], hsame⟩

/-- Settles O23: both runs end from the same codec in the same way (`exec_withErr`), so their ends differ in flags
only. -/
theorem flagsBlockNothing : Obligations.FlagsBlockNothing := by
  intro i s t e ht
  obtain ⟨u, e', t', ht', hresponses, ⟨v, out, rfl, rfl⟩ | ⟨c, out, rfl, rfl⟩⟩ := exec_withErr ht e
  all_goals
    refine ⟨_, ht', rfl, ?_⟩
    rw [← hresponses]
    exact ⟨_, _, rfl, rfl, rfl⟩

/-- Only BufferFull has the code 2 (R170). -/
theorem FaultCode.eq_bufferFull_of_status (c : FaultCode) (h : c.status = 2) : c = .bufferFull := by
  cases c with
  | bufferFull => rfl
  | outOfBounds | illegalWidth | unsupportedFloat | illegalCommand => exact absurd h (by decide)

/-- Settles O24: a command that takes BufferFull starts from a finite capacity (`exec_completes`). -/
theorem unboundedCapacityNeverFills : Obligations.UnboundedCapacityNeverFills := by
  intro i s t r hcap ht hr
  obtain ⟨u, -, ⟨-, v, out, rfl⟩ | ⟨-, c, out, rfl, hfull⟩⟩ := exec_completes i s t ht
  · obtain rfl := Option.some.inj ((answered_lastResponse u v out).symm.trans hr)
    exact (by decide : (0 : BitVec 8) ≠ 2)
  · obtain rfl := Option.some.inj ((takeFault_lastResponse c out u).symm.trans hr)
    exact fun h2 => hfull (c.eq_bufferFull_of_status h2) hcap

/-! ### What a command does to the codec -/

/-- The bits are the buffer's. -/
theorem bitAt_congr {s t : State} (h : t.buf = s.buf) (p : Nat) : t.bitAt p = s.bitAt p := by
  unfold State.bitAt
  rw [h]

/-- A write command writes some bits at the cursor: all of its field, those that fit (R176), or none. -/
theorem exec_write_wrote {i : Instr} {s t : State} (hi : s.Inv) (hw : isWrite i = true) (ht : exec i s = .next t) :
    ∃ u n f, Wrote s u n f ∧ u.Inv ∧ Ended u t := by
  cases hp : checksPass i with
  | false =>
    obtain ⟨c, he⟩ := exec_write_unchecked i hw hp s
    exact ⟨s, 0, fun _ => false, Wrote.refl s hi _, hi, .inr ⟨c, [], Host.Outcome.next.inj (ht.symm.trans he)⟩⟩
  | true =>
    obtain ⟨run, n, f, -, hwrites, he⟩ := exec_write i hw hp
    obtain ⟨hroom, hfull⟩ := hwrites s hi
    by_cases hr : s.Room n
    · obtain ⟨u, hrun, hwrote, hu⟩ := hroom hr
      rw [he, hrun] at ht
      exact ⟨u, n, f, hwrote, hu, .inl ⟨0, [], (Host.Outcome.next.inj ht).symm⟩⟩
    · obtain ⟨cap, hc, hlt⟩ := not_room hr
      obtain ⟨u, hrun, hwrote, -, -, hu⟩ := hfull cap hc hlt
      rw [he, hrun] at ht
      exact ⟨u, _, f, hwrote, hu, .inr ⟨.bufferFull, [], (Host.Outcome.next.inj ht).symm⟩⟩

/-- Settles O17: the parts of a command that is no construction move forward only (`exec_ends`). -/
theorem cursorAndLengthNeverDecrease : Obligations.CursorAndLengthNeverDecrease := by
  intro i s t hc ht
  obtain ⟨u, h⟩ := exec_ends i s t hc ht
  obtain ⟨-, hlen, hcursor⟩ : t.buf = u.buf ∧ t.len = u.len ∧ t.cursor = u.cursor :=
    Ended.codec (h.answer.imp id fun ⟨c, out, hfault, _⟩ => ⟨c, out, hfault⟩)
  exact ⟨hcursor ▸ h.cursor, hlen ▸ h.len⟩

/-- A command that neither writes nor makes a new codec moves the cursor only, and inside the buffer. -/
theorem exec_other {i : Instr} {s t : State} (hi : s.Inv) (hc : isConstruction i = false) (hw : isWrite i = false)
    (ht : exec i s = .next t) : ∃ u, u = { s with cursor := u.cursor } ∧ u.Inv ∧ Ended u t := by
  cases i with
  | getBuf =>
    exact ⟨s, rfl, hi, .inl ⟨_, _, Host.Outcome.next.inj (ht.symm.trans (exec_getBuf s))⟩⟩
  | readBit | readUint _ | readInt _ | readFloat | readDouble | readString =>
    obtain ⟨u, hframe, hinside, hended⟩ := exec_read _ rfl s t ht
    refine ⟨u, hframe, ?_, hended⟩
    rw [hframe]
    exact ⟨hi.canonical, hi.within, hinside hi.cursorInside, hi.lenInCap⟩
  | init | load _ => simp [isConstruction] at hc
  | addBit _ | addUint _ _ | addInt _ _ | addFloat _ | addDouble _ | addString _ => simp [isWrite] at hw

/-- Every command keeps the invariant. -/
theorem exec_inv {i : Instr} {s t : State} (hi : s.Inv) (ht : exec i s = .next t) : t.Inv := by
  cases hc : isConstruction i with
  | true =>
    rcases exec_construction hc ht with ⟨u, rfl, rfl | ⟨bytes, hfits, rfl⟩⟩ | ⟨rfl, -⟩
    · exact inv_answered (inv_makeEmpty s) 0 []
    · exact inv_answered (inv_makeLoaded s bytes hfits) 0 []
    · exact inv_takeFault hi .bufferFull []
  | false =>
    cases hw : isWrite i with
    | true =>
      obtain ⟨u, n, f, -, hu, hended⟩ := exec_write_wrote hi hw ht
      exact hended.inv hu
    | false =>
      obtain ⟨u, -, hu, hended⟩ := exec_other hi hc hw ht
      exact hended.inv hu

/-- Settles O14: waiting and a reset keep the invariant, a reserved opcode's fault touches no part of it, and every
command keeps it (`exec_inv`). -/
theorem everyStepKeepsTheInvariant : Obligations.EveryStepKeepsTheInvariant := by
  intro s t hi ht
  have hi' : ∀ rest, State.Inv { s with pending := rest } := fun _ =>
    ⟨hi.canonical, hi.within, hi.cursorInside, hi.lenInCap⟩
  match hp : s.pending with
  | [] =>
    obtain rfl := Host.Outcome.next.inj ((step_idle hp).symm.trans ht)
    exact hi
  | .reset during :: rest =>
    obtain rfl := Host.Outcome.next.inj ((step_reset hp).symm.trans ht)
    exact inv_makeEmpty _
  | .command c :: rest =>
    cases hd : decode c with
    | ok i => exact exec_inv (hi' rest) ((step_of_decode_ok hp hd).symm.trans ht)
    | error e =>
      have hstep := (step_of_decode_error hp hd).symm.trans ht
      cases e with
      | payloadLength => cases hstep
      | illegalCommand =>
        obtain rfl := Host.Outcome.next.inj hstep
        exact inv_takeFault (hi' rest) .illegalCommand []

/-- Settles O18: a write changes the bits of its field only (`Wrote`), any other command none. -/
theorem bitsChangeOnlyWhereTheCursorPasses : Obligations.BitsChangeOnlyWhereTheCursorPasses := by
  intro i s t hi hc ht
  cases hw : isWrite i with
  | true =>
    obtain ⟨u, n, f, hwrote, -, hended⟩ := exec_write_wrote hi hw ht
    obtain ⟨hbuf, hlen, hcursor⟩ := hended.codec
    rw [hwrote.cursor] at hcursor
    refine ⟨fun p hp => ?_, fun h => Bool.noConfusion h, ?_⟩
    · rw [bitAt_congr hbuf, hwrote.bits, if_neg (by omega)]
    · rw [hlen, hwrote.len, hcursor]
      omega
  | false =>
    obtain ⟨u, hframe, -, hended⟩ := exec_other hi hc hw ht
    obtain ⟨hbuf, hlen, -⟩ := hended.codec
    have hbuf' : t.buf = s.buf := by rw [hbuf, hframe]
    have hlen' : t.len = s.len := by rw [hlen, hframe]
    exact ⟨fun p _ => bitAt_congr hbuf' p, fun _ => ⟨hbuf', hlen'⟩, .inl hlen'⟩

/-- Settles O19: the new codec of init has no bit set; any other command but load leaves the bits from its new cursor on
as they were (O18), and its new cursor is not below the old one (O17). -/
theorem padBitsStayZero : Obligations.PadBitsStayZero := by
  intro i s t hi hload hzero ht p hp
  cases hc : isConstruction i with
  | false =>
    obtain ⟨hbits, -, -⟩ := bitsChangeOnlyWhereTheCursorPasses i s t hi hc ht
    obtain ⟨hcursor, -⟩ := cursorAndLengthNeverDecrease i s t hc ht
    rw [hbits p (.inr hp)]
    exact hzero p (hcursor.trans hp)
  | true =>
    cases i with
    | init =>
      obtain rfl := Host.Outcome.next.inj ((exec_init s).symm.trans ht)
      simp [State.bitAt]
    | load payload => exact absurd rfl (hload payload)
    | addBit _ | readBit | addUint _ _ | readUint _ | addInt _ _ | readInt _ | addFloat _ | readFloat | addDouble _
    | readDouble | addString _ | readString | getBuf => simp [isConstruction] at hc

/-- Settles O20: the length of a write is the greater of the old one and the bytes up to the new cursor (`Wrote`). -/
theorem writingKeepsTheLengthTight : Obligations.WritingKeepsTheLengthTight := by
  intro i s t hi hw htight ht
  obtain ⟨u, n, f, hwrote, -, hended⟩ := exec_write_wrote hi hw ht
  obtain ⟨-, hlen, hcursor⟩ := hended.codec
  rw [hlen, hcursor, hwrote.len, hwrote.cursor]
  omega

/-! ### At the end of the buffer and of the capacity -/

/-- A part of a command whose first act is the bit step `step`. -/
def Begins {α β : Type} (step : State → Run α) (run : State → Run β) : Prop :=
  ∃ k, ∀ s, run s = (step s).bind k

theorem begins_self {α β : Type} (step : State → Run α) (k : α → State → Run β) :
    Begins step (fun s => (step s).bind k) := ⟨k, fun _ => rfl⟩

theorem Begins.bind {α β γ : Type} {step : State → Run α} {run : State → Run β} (h : Begins step run)
    (q : β → State → Run γ) : Begins step (fun s => (run s).bind q) := by
  obtain ⟨k, hk⟩ := h
  exact ⟨fun a t => (k a t).bind q, fun s => by simp only [hk, Run.bind_assoc]⟩

/-- A part raises where its first bit step does. -/
theorem Begins.raise {α β : Type} {step : State → Run α} {run : State → Run β} {s t : State} {c : FaultCode}
    (h : Begins step run) (hs : step s = .raise c t) : run s = .raise c t := by
  obtain ⟨k, hk⟩ := h
  rw [hk, hs, Run.raise_bind]

theorem begins_writeU {n : Nat} (v : Nat) (hn : 1 ≤ n) : Begins (writeBit (v.testBit 0)) (writeU v n) := by
  obtain ⟨k, rfl⟩ := Nat.exists_eq_add_of_le' hn
  exact begins_self _ _

theorem begins_readU {n : Nat} (hn : 1 ≤ n) : Begins readBit (readU n) := by
  obtain ⟨k, rfl⟩ := Nat.exists_eq_add_of_le' hn
  exact begins_self _ _

theorem begins_addFloating {f : FloatFmt} {p : Nat} (h : f.unsupported p = false) :
    ∃ b, Begins (writeBit b) (addFloating f p) := by
  cases hz : f.isZero p with
  | true => exact ⟨_, _, fun s => by rw [addFloating, h, hz]; rfl⟩
  | false => exact ⟨_, _, fun s => by rw [addFloating, h, hz]; rfl⟩

theorem begins_readChars (fuel : Nat) (acc : List Byte) : Begins readBit (readChars (fuel + 1) acc) :=
  (begins_readU (by decide : 1 ≤ 8)).bind _

/-- The widths a check lets through have a first bit step. -/
theorem one_le_of_widthLegal {lo : Nat} {w : Width} (hlo : 1 ≤ lo) (h : widthLegal lo w = true) : 1 ≤ w.toNat :=
  hlo.trans ((widthLegal_eq_true_iff lo w).1 h).1

/-- A write command whose check passes begins with a bit step. -/
theorem exec_write_begins {i : Instr} (hw : isWrite i = true) (hp : checksPass i = true) :
    ∃ b run, Begins (writeBit b) run ∧ ∀ s, exec i s = finish (run s) := by
  cases i with
  | addBit b => exact ⟨b, _, begins_self _ _, exec_addBit b⟩
  | addUint v w =>
    exact ⟨_, _, (begins_writeU _ (one_le_of_widthLegal le_rfl hp)).bind _, exec_addUint_legal v w hp⟩
  | addInt v w => exact ⟨_, _, (begins_self _ _).bind _, exec_addInt_legal v w hp⟩
  | addFloat P =>
    obtain ⟨b, hb⟩ := begins_addFloating (by simpa [checksPass] using hp : float32.unsupported P.toNat = false)
    exact ⟨b, _, hb.bind _, exec_addFloat P⟩
  | addDouble P =>
    obtain ⟨b, hb⟩ := begins_addFloating (by simpa [checksPass] using hp : float64.unsupported P.toNat = false)
    exact ⟨b, _, hb.bind _, exec_addDouble P⟩
  | addString chars =>
    cases chars with
    | nil => exact ⟨_, _, (begins_writeU 0 (by decide : 1 ≤ 8)).bind _, fun _ => rfl⟩
    | cons c rest =>
      exact ⟨_, _, ((begins_writeU c.toNat (by decide : 1 ≤ 8)).bind _).bind _, fun _ => rfl⟩
  | init | load _ | readBit | readUint _ | readInt _ | readFloat | readDouble | readString | getBuf =>
    simp [isWrite] at hw

/-- A read command whose check passes begins with a bit step; readString ends in its own way (R67). -/
theorem exec_read_begins {i : Instr} (hr : isRead i = true) (hp : checksPass i = true) (s : State) :
    ∃ run, Begins readBit run ∧ (exec i s = finish (run s) ∨ exec i s = finishPayload (run s)) := by
  cases i with
  | readBit => exact ⟨_, begins_self _ _, .inl (exec_readBit s)⟩
  | readUint w =>
    exact ⟨_, (begins_readU (one_le_of_widthLegal le_rfl hp)).bind _, .inl (exec_readUint_legal w hp s)⟩
  | readInt w => exact ⟨_, (begins_self _ _).bind _, .inl (exec_readInt_legal w hp s)⟩
  | readFloat => exact ⟨_, (begins_self _ _).bind _, .inl (exec_readFloat s)⟩
  | readDouble => exact ⟨_, (begins_self readBit _).bind _, .inl rfl⟩
  | readString => exact ⟨_, (begins_readChars s.len []).bind _, .inr (exec_readString s)⟩
  | init | load _ | addBit _ | addUint _ _ | addInt _ _ | addFloat _ | addDouble _ | addString _ | getBuf =>
    simp [isRead] at hr

/-- Settles O25: the first bit step raises in the state the command starts from (`readBit_outside`,
`writeBit_beyond`). -/
theorem theEndStaysTheEnd : Obligations.TheEndStaysTheEnd := by
  refine ⟨fun i s hend hr hp => ?_, fun i s cap hc hend hw hp => ?_⟩
  · obtain ⟨run, hbegins, hexec⟩ := exec_read_begins hr hp s
    have hraise : run s = .raise .outOfBounds s := hbegins.raise (readBit_outside s (by omega))
    rw [hraise] at hexec
    rcases hexec with hexec | hexec
    · exact ⟨_, _, hexec, takeFault_faulted .outOfBounds _ s⟩
    · exact ⟨_, _, hexec, takeFault_faulted .outOfBounds _ s⟩
  · obtain ⟨b, run, hbegins, hexec⟩ := exec_write_begins hw hp
    have hraise : run s = .raise .bufferFull s := hbegins.raise (writeBit_beyond s b cap hc (by omega))
    exact ⟨_, by rw [hexec, hraise]; rfl, takeFault_faulted .bufferFull [] s⟩

/-! ### A read after a write -/

/-- A bit in `RW.value`, as a number. -/
theorem zext64_bit (b : Bool) : zext64 b.toNat = BitVec.ofNat 64 b.toNat := rfl

/-- Settles O26: addBit writes the field of one bit (`writes_bit`), and `ReadBit` gives the bit at its position. -/
theorem readReturnsTheLastWrite : Obligations.ReadReturnsTheLastWrite := by
  intro s t b p hi hroom ht hp
  obtain ⟨u, hrun, hwrote, -⟩ := (writes_bit b s hi).1 hroom
  rw [exec_addBit, hrun] at ht
  obtain rfl := Host.Outcome.next.inj ht
  have hbit : u.bitAt p = if p = s.cursor then b else s.bitAt p := by
    rw [hwrote.bits]
    exact if_congr (by omega) rfl rfl
  rw [exec_readBit, readBit_inside _ (Nat.div_lt_of_lt_mul hp), Run.ok_bind, finish_ok]
  show Host.Outcome.next (answered _ (zext64 (u.bitAt p).toNat) []) = _
  rw [hbit, zext64_bit, apply_ite Bool.toNat, apply_ite (BitVec.ofNat 64)]

end Sys2Proof.Machine
end

section
/-! PROOFS. Fields of the stream: their parts (R43), readUint (R113), the bits of a signed field (R114), and the integer
round trips through a transfer (R118, R205). -/

namespace Sys2Proof.Machine

/-! ### The parts of a field -/

/-- A field as its low and its high part (R43). -/
theorem fieldAt_add (s : State) (p a b : Nat) :
    s.fieldAt p (a + b) = s.fieldAt p a + 2 ^ a * s.fieldAt (p + a) b := by
  unfold State.fieldAt
  rw [Finset.sum_range_add, Finset.mul_sum]
  refine congrArg₂ (· + ·) rfl (Finset.sum_congr rfl fun i _ => ?_)
  rw [pow_add, Nat.add_assoc]
  ring

/-- Neither an answer nor the cursor changes the fields of the buffer. -/
@[simp] theorem fieldAt_answered (s : State) (v : Val) (out : List Byte) (p n : Nat) :
    (answered s v out).fieldAt p n = s.fieldAt p n := rfl

@[simp] theorem fieldAt_moved (s : State) (c p n : Nat) : State.fieldAt { s with cursor := c } p n = s.fieldAt p n := rfl

/-- The field of one whole byte is that byte (R42, R43). -/
theorem fieldAt_byte (s : State) (a : Nat) : s.fieldAt (8 * a) 8 = (s.buf.read a).toNat := by
  have hbits : s.fieldAt (8 * a) 8 = (s.buf.read a).toNat % 2 ^ 8 :=
    fieldAt_eq_mod s (8 * a) 8 _ fun i hi => by rw [bitAt_byte s a i hi, BitVec.testBit_toNat]
  rw [hbits, Nat.mod_eq_of_lt (s.buf.read a).isLt]

/-- Settles O27: byte by byte, each byte the high part of the field so far (`fieldAt_add`, `fieldAt_byte`). -/
theorem alignedFieldsAreLittleEndianBytes : Obligations.AlignedFieldsAreLittleEndianBytes := by
  intro s a k
  induction k with
  | zero => rfl
  | succ k ih =>
    have hpower : 2 ^ (8 * k) = 256 ^ k := by rw [pow_mul]; norm_num
    rw [Finset.sum_range_succ, ← ih, Nat.mul_add_one 8 k, fieldAt_add, ← Nat.mul_add, fieldAt_byte, hpower,
      Nat.mul_comm (256 ^ k)]

/-! ### readUint -/

/-- A field of at most 64 bits fits the value port. -/
theorem fieldAt_lt_of_le (s : State) (p : Nat) {n m : Nat} (hn : n ≤ m) : s.fieldAt p n < 2 ^ m :=
  (fieldAt_lt s n p).trans_le (Nat.pow_le_pow_right (by decide) hn)

/-- readUint with a legal width reads the unsigned field at the cursor (R113). -/
theorem readsField_readUint {s : State} {bits : Width} (hlegal : widthLegal 1 bits = true)
    (hs : s.cursor ≤ 8 * s.len) :
    ReadsField (.readUint bits) s bits.toNat (BitVec.ofNat 64 (s.fieldAt s.cursor bits.toNat)) :=
  finish_reads (reads_u bits.toNat) (exec_readUint_legal bits hlegal) s hs

/-- Settles O35: with a legal width readUint reads the field of `reads_u`, with an illegal one it raises at once. -/
theorem readUintGivesTheField : Obligations.ReadUintGivesTheField := by
  refine fun s bits => ⟨fun hi hlo hhi => ⟨?_, fieldAt_lt_of_le s s.cursor hhi⟩,
    fun hout => faultsAtOnce_of_exec_raise ?_⟩
  · exact readsField_readUint ((widthLegal_eq_true_iff 1 bits).2 ⟨hlo, hhi⟩) hi.cursorInside
  · exact exec_readUint_illegal bits ((widthLegal_eq_false_iff 1 bits).2 hout) s

/-- readUint of a readable field answers its value. -/
theorem exec_readUint_readable {s : State} {bits : Width} (hlegal : widthLegal 1 bits = true)
    (hr : s.Readable bits.toNat) : exec (.readUint bits) s =
      .next (answered { s with cursor := s.cursor + bits.toNat } (BitVec.ofNat 64 (s.fieldAt s.cursor bits.toNat)) []) :=
  (readsField_readUint hlegal (Nat.le_of_add_right_le hr)).1 hr

/-- Settles O28: three reads of readable fields (`exec_readUint_readable`), the third the sum of the first two
(`fieldAt_add`). -/
theorem mixedWidthReadsSplitTheField : Obligations.MixedWidthReadsSplitTheField := by
  intro s a b c ha hb hsum hc hr
  have hlegal : ∀ w : Width, 1 ≤ w.toNat → w.toNat ≤ c.toNat → widthLegal 1 w = true := fun w h1 hw =>
    (widthLegal_eq_true_iff 1 w).2 ⟨h1, hw.trans hc⟩
  have hra : s.Readable a.toNat := by unfold State.Readable at hr ⊢; omega
  have hea := exec_readUint_readable (hlegal a ha (by omega)) hra
  have hec := exec_readUint_readable (hlegal c (by omega) le_rfl) hr
  have heb := exec_readUint_readable
    (s := answered { s with cursor := s.cursor + a.toNat } (BitVec.ofNat 64 (s.fieldAt s.cursor a.toNat)) [])
    (hlegal b hb (by omega)) (by unfold State.Readable at hr ⊢; simp only [answered_cursor, answered_len]; omega)
  refine ⟨_, _, _, _, _, _, hea, heb, hec, answered_lastResponse _ _ _, answered_lastResponse _ _ _,
    answered_lastResponse _ _ _, rfl, rfl, rfl, ?_, ?_⟩
  · have hport : ∀ (w : Width) (p : Nat), w.toNat ≤ c.toNat →
        (BitVec.ofNat 64 (s.fieldAt p w.toNat)).toNat = s.fieldAt p w.toNat := fun w p hw =>
      (BitVec.toNat_ofNat _ _).trans (Nat.mod_eq_of_lt (fieldAt_lt_of_le s p (hw.trans hc)))
    simp only [answered_cursor, fieldAt_answered, fieldAt_moved]
    rw [hport a _ (by omega), hport b _ (by omega), hport c _ le_rfl, hsum, fieldAt_add]
  · simp only [answered_cursor, hsum, Nat.add_assoc]

/-! ### The bits of a signed field -/

theorem signedFieldBit_zero (v : Int) : signedFieldBit v 0 = signBit v := rfl

theorem signedFieldBit_succ (v : Int) (i : Nat) : signedFieldBit v (i + 1) = (magnitude v).testBit i := by
  rw [signedFieldBit, magnitude, if_neg i.succ_ne_zero, Nat.add_sub_cancel]
  by_cases hv : v < 0
  · rw [if_pos hv, if_neg hv.not_ge]
  · rw [if_neg hv, if_pos (Int.not_lt.1 hv)]

theorem magnitude_of_nonneg {v : Int} (hv : 0 ≤ v) : (magnitude v : Int) = v := by
  rw [magnitude, if_pos hv, Int.toNat_of_nonneg hv]

theorem magnitude_of_neg {v : Int} (hv : v < 0) : (magnitude v : Int) = -v - 1 := by
  rw [magnitude, if_neg hv.not_ge, Int.toNat_of_nonneg (by omega)]

/-- The sign and the magnitude of a number make the number again (R72). -/
theorem signedOf_magnitude (v : Int) : signedOf (signBit v) (magnitude v) = v := by
  rw [signedOf, signBit]
  by_cases hv : v < 0
  · rw [decide_eq_true hv, if_pos rfl, magnitude_of_neg hv]
    omega
  · rw [decide_eq_false hv, if_neg Bool.false_ne_true, magnitude_of_nonneg (Int.not_lt.1 hv)]

/-- A number in the range of a signed field has a magnitude that fits it (R114, R118). -/
theorem magnitude_lt {v : Int} {k : Nat} (hmin : -(2 ^ k : Int) ≤ v) (hmax : v < 2 ^ k) : magnitude v < 2 ^ k := by
  zify
  by_cases hv : v < 0
  · rw [magnitude_of_neg hv]
    omega
  · rwa [magnitude_of_nonneg (Int.not_lt.1 hv)]

/-- The sign of a 64-bit pattern is its top bit (R13, R114). -/
theorem signBit_toInt (v : Val) : signBit v.toInt = v.getLsbD 63 :=
  (BitVec.msb_eq_toInt (x := v)).symm.trans (BitVec.msb_eq_getLsbD_last v)

/-- The magnitude of a 64-bit pattern is the pattern, complemented when the top bit is set (R114). -/
theorem magnitude_toInt (v : Val) : magnitude v.toInt = if v.msb then (~~~v).toNat else v.toNat := by
  have hlt := v.isLt
  zify
  rw [BitVec.toInt_eq_msb_cond, BitVec.toNat_not]
  cases v.msb with
  | true => rw [if_pos rfl, if_pos rfl, magnitude_of_neg (by omega)]; omega
  | false => exact magnitude_of_nonneg (Int.natCast_nonneg _)

/-- Settles O38: bit 0 is the sign (`signBit_toInt`), the bits behind it are those of `magnitude_toInt`. -/
theorem signedFieldComplementsNegatives : Obligations.SignedFieldComplementsNegatives := by
  intro v i hi
  cases i with
  | zero => rw [signedFieldBit_zero, signBit_toInt, if_pos rfl]
  | succ i =>
    have hi' : i < 64 := Nat.lt_of_succ_lt hi
    rw [signedFieldBit_succ, magnitude_toInt, BitVec.msb_eq_getLsbD_last, if_neg i.succ_ne_zero, Nat.add_sub_cancel]
    cases v.getLsbD 63 with
    | true => rw [if_pos rfl, BitVec.testBit_toNat, BitVec.getLsbD_not, decide_eq_true hi', Bool.true_and, Bool.true_xor]
    | false => rw [if_neg Bool.false_ne_true, BitVec.testBit_toNat, Bool.false_xor]

/-- Where the bits of a signed field stand, the field reads as the sign and the low bits of the magnitude (R116, R118). -/
theorem signedFieldAt_eq {s : State} {p n : Nat} {v : Int} (hn : 1 ≤ n)
    (h : ∀ i, i < n → s.bitAt (p + i) = signedFieldBit v i) :
    s.signedFieldAt p n = signedOf (signBit v) (magnitude v % 2 ^ (n - 1)) := by
  have hsign : s.bitAt p = signBit v := h 0 hn
  have hfield : s.fieldAt (p + 1) (n - 1) = magnitude v % 2 ^ (n - 1) := by
    refine fieldAt_eq_mod s (p + 1) (n - 1) _ fun i hi => ?_
    rw [Nat.add_assoc, Nat.add_comm 1 i, h (i + 1) (by omega), signedFieldBit_succ]
  rw [State.signedFieldAt, hsign, hfield, signedOf]

/-! ### The integer round trips -/

/-- A write command, a transfer and a read command of the same width: the read answers the value of the field the written
bits make at position 0 (R205). -/
theorem readsBack_of_transfer {i read : Instr} {run : State → Run Unit} {n : Nat} {f : Nat → Bool} {val : State → Val}
    (hw : Writes run n f) (he : ∀ s, exec i s = finish ((run s).bind fun _ t => .ok Result.none t))
    (hread : ∀ v : State, v.Inv → ReadsField read v n (val v)) (s : State)
    (hcap : ∀ cap, s.bufCap = some cap → n ≤ 8 * cap) :
    ∃ v r, v.cursor = 0 ∧ (∀ p, p < n → v.bitAt p = f p) ∧ ReadsBack s [i] read r ∧ r.status = 0 ∧
      r.value = val v := by
  obtain ⟨t, g, v, hwrite, -, hg, hstatus, hload, hinv, hcursor, hlen, hbits⟩ := transfer i run n f hw he s hcap
  have hreadable : v.Readable n := by unfold State.Readable; omega
  have hexec := (hread v hinv).1 hreadable
  have hexecs : execs [.load g.out, read] t = .next (answered { v with cursor := v.cursor + n } (val v) []) := by
    simp only [execs, hload, hexec]
  exact ⟨v, _, hcursor, hbits, ⟨t, _, g, hwrite, hg, hstatus, hexecs, answered_lastResponse _ _ _⟩, rfl, rfl⟩

/-- Settles O39: the field read back holds the low bits of the value (`fieldAt_eq_mod`). -/
theorem unsignedRoundTrip : Obligations.UnsignedRoundTrip := by
  intro s v bits hlo hhi hcap
  have hlegal := (widthLegal_eq_true_iff 1 bits).2 ⟨hlo, hhi⟩
  obtain ⟨w, r, hcursor, hbits, hback, hstatus, hvalue⟩ :=
    readsBack_of_transfer (writes_u v.toNat bits.toNat) (exec_addUint_legal v bits hlegal)
      (fun w hi => readsField_readUint hlegal hi.cursorInside) s hcap
  have hfield : w.fieldAt w.cursor bits.toNat = v.toNat % 2 ^ bits.toNat :=
    fieldAt_eq_mod w w.cursor bits.toNat _ fun i hi => by rw [hcursor, Nat.zero_add]; exact hbits i hi
  refine ⟨r, hback, hstatus, ?_⟩
  rw [hvalue, BitVec.toNat_ofNat, Nat.mod_eq_of_lt (fieldAt_lt_of_le w w.cursor hhi), hfield]

/-- readInt with a legal width reads the signed field at the cursor (R117). -/
theorem readsField_readInt {s : State} {bits : Width} (hlegal : widthLegal 2 bits = true) (hi : s.Inv) :
    ReadsField (.readInt bits) s bits.toNat (BitVec.ofInt 64 (s.signedFieldAt s.cursor bits.toNat)) :=
  have hwidth := (widthLegal_eq_true_iff 2 bits).1 hlegal
  ((readIntGivesTheSignedField s bits).1 hi hwidth.1 hwidth.2).1

/-- A number with a sign and a magnitude below `2^63` is what its pattern stands for (R13). -/
theorem toInt_ofInt_signedOf {sign : Bool} {m : Nat} (hm : m < 2 ^ 63) :
    (BitVec.ofInt 64 (signedOf sign m)).toInt = signedOf sign m := by
  refine BitVec.toInt_ofInt_eq_self (by decide) ?_ ?_
  all_goals cases sign <;> simp only [signedOf, Bool.false_eq_true, if_false, if_true] <;> omega

/-- Settles O40: the field read back is the sign and the cut magnitude (`signedFieldAt_eq`), and a value in range has a
magnitude that is not cut. -/
theorem signedRoundTrip : Obligations.SignedRoundTrip := by
  intro s v bits hlo hhi hcap
  have hlegal := (widthLegal_eq_true_iff 2 bits).2 ⟨hlo, hhi⟩
  have hn : 1 ≤ bits.toNat := Nat.one_le_of_lt hlo
  obtain ⟨w, r, hcursor, hbits, hback, hstatus, hvalue⟩ :=
    readsBack_of_transfer (writes_s v.toInt bits.toNat hn) (exec_addInt_legal v bits hlegal)
      (fun w hi => readsField_readInt hlegal hi) s hcap
  have hfield : w.signedFieldAt w.cursor bits.toNat =
      signedOf (signBit v.toInt) (magnitude v.toInt % 2 ^ (bits.toNat - 1)) :=
    signedFieldAt_eq hn fun i hi => by rw [hcursor, Nat.zero_add]; exact hbits i hi
  have hcut : magnitude v.toInt % 2 ^ (bits.toNat - 1) < 2 ^ 63 :=
    (Nat.mod_lt _ (Nat.two_pow_pos _)).trans_le (Nat.pow_le_pow_right (by decide) (by omega))
  have hint : r.value.toInt = signedOf (signBit v.toInt) (magnitude v.toInt % 2 ^ (bits.toNat - 1)) := by
    rw [hvalue, hfield, toInt_ofInt_signedOf hcut]
  refine ⟨r, hback, hstatus, fun hmin hmax => ?_, fun hpos => ?_, fun hneg => ?_⟩
  · have hsmall : magnitude v.toInt < 2 ^ (bits.toNat - 1) := magnitude_lt hmin (by omega)
    rw [Nat.mod_eq_of_lt hsmall, signedOf_magnitude] at hint
    exact BitVec.eq_of_toInt_eq hint
  · rw [hint, signBit, decide_eq_false hpos.not_gt, signedOf, if_neg Bool.false_ne_true]
    push_cast
    rw [magnitude_of_nonneg hpos]
  · rw [hint, signBit, decide_eq_true hneg, signedOf, if_pos rfl]
    push_cast
    rw [magnitude_of_neg hneg]

end Sys2Proof.Machine
end

section
/-! PROOFS. The float functions of spec/42_float_packer.md on numbers: the fields of a packed pattern, the value it stands
for (R130, R131), FDECOMP (R132, R140) and FRECOMP (R136, R144). Each fact is stated for a format `f`. -/

namespace Sys2Proof.Machine

/-! ### The formats -/

/-- What the two formats of R10 have in common: the bias is half the exponent field's range, less one, and not below the
width of the fraction. -/
structure FloatFmt.Regular (f : FloatFmt) : Prop where
  eb_pos : 1 ≤ f.eb
  fb_ge : 2 ≤ f.fb
  fb_le : f.fb ≤ f.bias
  half : 2 ^ (f.eb - 1) = f.bias + 1
  full : 2 ^ f.eb = 2 * (f.bias + 1)

theorem regular_float32 : float32.Regular := ⟨by decide, by decide, by decide, by decide, by decide⟩

theorem regular_float64 : float64.Regular := ⟨by decide, by decide, by decide, by decide, by decide⟩

theorem regular_of_isFloatFmt {f : FloatFmt} (h : isFloatFmt f) : f.Regular := by
  rcases h with rfl | rfl
  · exact regular_float32
  · exact regular_float64

/-! ### The fields of a packed pattern -/

theorem low_div_lt {f : FloatFmt} {low : Nat} (h : low < 2 ^ (f.eb + f.fb)) : low / 2 ^ f.fb < 2 ^ f.eb :=
  Nat.div_lt_of_lt_mul (by rwa [← pow_add, Nat.add_comm])

theorem signOf_pack {f : FloatFmt} (sign : Bool) {low : Nat} (h : low < 2 ^ (f.eb + f.fb)) :
    f.signOf (f.pack sign low) = sign := by
  rw [FloatFmt.signOf, FloatFmt.pack, Nat.mul_comm, Nat.testBit_two_pow_mul_add _ h, if_neg (Nat.lt_irrefl _),
    Nat.sub_self]
  cases sign <;> rfl

theorem expOf_pack {f : FloatFmt} (sign : Bool) {low : Nat} (h : low < 2 ^ (f.eb + f.fb)) :
    f.expOf (f.pack sign low) = low / 2 ^ f.fb := by
  have hsplit : f.pack sign low = low + 2 ^ f.fb * (2 ^ f.eb * sign.toNat) := by
    rw [FloatFmt.pack, pow_add]
    ring
  rw [FloatFmt.expOf, hsplit, Nat.add_mul_div_left _ _ (Nat.two_pow_pos _), Nat.add_mul_mod_self_left,
    Nat.mod_eq_of_lt (low_div_lt h)]

theorem fracOf_pack {f : FloatFmt} (sign : Bool) (low : Nat) : f.fracOf (f.pack sign low) = low % 2 ^ f.fb := by
  have hsplit : f.pack sign low = low + 2 ^ f.fb * (2 ^ f.eb * sign.toNat) := by
    rw [FloatFmt.pack, pow_add]
    ring
  rw [FloatFmt.fracOf, hsplit, Nat.add_mul_mod_self_left]

theorem fracOf_lt (f : FloatFmt) (p : Nat) : f.fracOf p < 2 ^ f.fb := Nat.mod_lt _ (Nat.two_pow_pos _)

theorem expOf_lt (f : FloatFmt) (p : Nat) : f.expOf p < 2 ^ f.eb := Nat.mod_lt _ (Nat.two_pow_pos _)

/-- A pattern is its sign, its exponent field and its fraction field (R130, R131). -/
theorem pack_fields {f : FloatFmt} {p : Nat} (hp : p < 2 ^ (1 + f.eb + f.fb)) :
    f.pack (f.signOf p) (f.expOf p * 2 ^ f.fb + f.fracOf p) = p := by
  have hlow : f.expOf p * 2 ^ f.fb + f.fracOf p = p % 2 ^ (f.eb + f.fb) := by
    rw [Nat.add_comm f.eb, pow_add, Nat.mod_mul, FloatFmt.expOf, FloatFmt.fracOf, Nat.mul_comm, Nat.add_comm]
  have htop : p / 2 ^ (f.eb + f.fb) < 2 :=
    Nat.div_lt_of_lt_mul (by rwa [← pow_succ, Nat.add_comm, ← Nat.add_assoc])
  rw [hlow, FloatFmt.pack, FloatFmt.signOf, Nat.toNat_testBit, Nat.mod_eq_of_lt htop, Nat.mul_comm, Nat.div_add_mod]

theorem pack_lt {f : FloatFmt} (sign : Bool) {low : Nat} (h : low < 2 ^ (f.eb + f.fb)) :
    f.pack sign low < 2 ^ (1 + f.eb + f.fb) := by
  rw [FloatFmt.pack, Nat.add_assoc, pow_add 2 1]
  cases sign <;> simp <;> omega

theorem pack_injective {f : FloatFmt} {sign sign' : Bool} {low low' : Nat} (h : low < 2 ^ (f.eb + f.fb))
    (h' : low' < 2 ^ (f.eb + f.fb)) (heq : f.pack sign low = f.pack sign' low') : sign = sign' ∧ low = low' := by
  have hsign : sign = sign' := by rw [← signOf_pack sign h, heq, signOf_pack sign' h']
  refine ⟨hsign, ?_⟩
  rw [hsign] at heq
  exact Nat.add_left_cancel heq

/-! ### The value of a pattern as a whole number at a scale -/

/-- The significand of a pattern, a whole number. -/
def FloatFmt.sig (f : FloatFmt) (p : Nat) : Nat := if f.expOf p = 0 then f.fracOf p else 2 ^ f.fb + f.fracOf p

/-- The exponent of the significand's unit. -/
def FloatFmt.scale (f : FloatFmt) (p : Nat) : Int :=
  (if f.expOf p = 0 then 1 else (f.expOf p : Int)) - f.bias - f.fb

/-- The factor of a sign. -/
def signFactor (sign : Bool) : ℚ := if sign then -1 else 1

theorem abs_signFactor (sign : Bool) : |signFactor sign| = 1 := by
  cases sign <;> simp [signFactor]

/-- The tables of R130 and R131 in one line. -/
theorem value_eq (f : FloatFmt) (p : Nat) : f.value p = signFactor (f.signOf p) * (f.sig p * (2 : ℚ) ^ f.scale p) := by
  unfold FloatFmt.value FloatFmt.sig FloatFmt.scale signFactor
  by_cases h : f.expOf p = 0
  · simp only [h, if_true]
  · simp only [h, if_false]
    push_cast
    rfl

theorem abs_value (f : FloatFmt) (p : Nat) : |f.value p| = f.sig p * (2 : ℚ) ^ f.scale p := by
  rw [value_eq, abs_mul, abs_signFactor, one_mul, abs_of_nonneg (by positivity)]

/-- The value of a number of units of the least subnormal, up to the least normal number (R136). -/
theorem value_pack_small {f : FloatFmt} (hf : f.Regular) (sign : Bool) {q : Nat} (hq : q ≤ 2 ^ f.fb) :
    f.value (f.pack sign q) = signFactor sign * q * (2 : ℚ) ^ (1 - (f.bias : ℤ) - (f.fb : ℤ)) := by
  have hlow : q < 2 ^ (f.eb + f.fb) := by
    rw [pow_add, hf.full]
    nlinarith [Nat.two_pow_pos f.fb]
  rw [value_eq, signOf_pack sign hlow, FloatFmt.sig, FloatFmt.scale, expOf_pack sign hlow, fracOf_pack, mul_assoc]
  rcases hq.lt_or_eq with hlt | rfl
  · rw [Nat.div_eq_of_lt hlt, Nat.mod_eq_of_lt hlt, if_pos rfl, if_pos rfl]
  · simp [Nat.div_self (Nat.two_pow_pos _)]

/-- The value of a normal number from its exponent field and its fraction (R130, R131). -/
theorem value_pack_normal {f : FloatFmt} (sign : Bool) {E n : Nat} (hE : 1 ≤ E) (hE' : E < 2 ^ f.eb)
    (hn : n < 2 ^ f.fb) : f.value (f.pack sign (E * 2 ^ f.fb + n)) =
      signFactor sign * ((2 : ℚ) ^ f.fb + n) * (2 : ℚ) ^ ((E : ℤ) - f.bias - (f.fb : ℤ)) := by
  have hlow : E * 2 ^ f.fb + n < 2 ^ (f.eb + f.fb) := by
    rw [pow_add]
    nlinarith
  have hexp : (E * 2 ^ f.fb + n) / 2 ^ f.fb = E := by
    rw [Nat.mul_comm, Nat.mul_add_div (Nat.two_pow_pos _), Nat.div_eq_of_lt hn, Nat.add_zero]
  have hfrac : (E * 2 ^ f.fb + n) % 2 ^ f.fb = n := by
    rw [Nat.mul_comm, Nat.mul_add_mod, Nat.mod_eq_of_lt hn]
  rw [value_eq, signOf_pack sign hlow, FloatFmt.sig, FloatFmt.scale, expOf_pack sign hlow, fracOf_pack, hexp, hfrac,
    if_neg (by omega), if_neg (by omega), mul_assoc]
  push_cast
  rfl

/-! ### Decomposition -/

/-- A pattern that is no zero has a significand. -/
theorem sig_ne_zero {f : FloatFmt} {p : Nat} (hz : f.isZero p = false) : f.sig p ≠ 0 := by
  unfold FloatFmt.sig
  split
  · rename_i hexp
    simpa [FloatFmt.isZero, hexp] using hz
  · have := Nat.two_pow_pos f.fb
    omega

/-- The top bit of the significand is that of the fraction, or the hidden one. -/
theorem log2_sig {f : FloatFmt} (p : Nat) :
    Nat.log2 (f.sig p) = if f.expOf p = 0 then Nat.log2 (f.fracOf p) else f.fb := by
  unfold FloatFmt.sig
  split
  · rfl
  · have := fracOf_lt f p
    rw [Nat.log2_eq_iff (by omega), pow_succ]
    omega

theorem log2_sig_le {f : FloatFmt} {p : Nat} (hz : f.isZero p = false) : Nat.log2 (f.sig p) ≤ f.fb := by
  refine Nat.lt_succ_iff.1 ((Nat.log2_lt (sig_ne_zero hz)).2 ?_)
  have := fracOf_lt f p
  unfold FloatFmt.sig
  rw [pow_succ]
  split <;> omega

/-- FDECOMP (R132, R140) on the significand: its top bit at its scale, and the bits below it moved up to the width of the
fraction. -/
theorem decomp_eq {f : FloatFmt} (hf : f.Regular) (p : Nat) :
    f.decomp p = (Nat.log2 (f.sig p) + f.scale p,
      (f.sig p - 2 ^ Nat.log2 (f.sig p)) * 2 ^ (f.fb - Nat.log2 (f.sig p))) := by
  have hfb := hf.fb_ge
  rw [log2_sig, FloatFmt.decomp, FloatFmt.scale, FloatFmt.sig]
  split
  · refine Prod.ext ?_ rfl
    show ((Nat.log2 (f.fracOf p) : Nat) : Int) - ((f.bias + f.fb - 1 : Nat) : Int) = _
    omega
  · refine Prod.ext ?_ ?_
    · show (f.expOf p : Int) - f.bias = _
      omega
    · simp

/-- The binary logarithm of a whole number at a scale. -/
theorem log_natCast_mul_zpow {M : Nat} (hM : M ≠ 0) (x : Int) :
    Int.log 2 ((M : ℚ) * (2 : ℚ) ^ x) = Nat.log2 M + x := by
  have hpos : (0 : ℚ) < M * (2 : ℚ) ^ x := by
    have : (0 : ℚ) < M := by exact_mod_cast Nat.pos_of_ne_zero hM
    positivity
  have hlow : (2 : ℚ) ^ ((Nat.log2 M : Int) + x) ≤ M * (2 : ℚ) ^ x := by
    rw [zpow_add₀ two_ne_zero, zpow_natCast]
    exact mul_le_mul_of_nonneg_right (by exact_mod_cast Nat.log2_self_le hM) (by positivity)
  have hhigh : M * (2 : ℚ) ^ x < (2 : ℚ) ^ ((Nat.log2 M : Int) + x + 1) := by
    rw [show (Nat.log2 M : Int) + x + 1 = ((Nat.log2 M + 1 : Nat) : Int) + x by push_cast; ring,
      zpow_add₀ two_ne_zero, zpow_natCast]
    exact mul_lt_mul_of_pos_right (by exact_mod_cast Nat.lt_log2_self) (by positivity)
  refine le_antisymm (Int.lt_add_one_iff.1 ((Int.lt_zpow_iff_log_lt one_lt_two hpos).1 ?_))
    ((Int.zpow_le_iff_le_log one_lt_two hpos).1 ?_)
  · exact_mod_cast hhigh
  · exact_mod_cast hlow

/-- The bits below the top one, moved up to the width of the fraction, are a fraction. -/
theorem decomp_frac_lt {f : FloatFmt} (hf : f.Regular) {p : Nat} (hz : f.isZero p = false) :
    (f.decomp p).2 < 2 ^ f.fb := by
  have htop := log2_sig_le hz
  have hsig : f.sig p < 2 ^ Nat.log2 (f.sig p) * 2 := Nat.lt_log2_self
  rw [decomp_eq hf]
  calc (f.sig p - 2 ^ Nat.log2 (f.sig p)) * 2 ^ (f.fb - Nat.log2 (f.sig p))
      < 2 ^ Nat.log2 (f.sig p) * 2 ^ (f.fb - Nat.log2 (f.sig p)) :=
        Nat.mul_lt_mul_of_pos_right (by omega) (Nat.two_pow_pos _)
    _ = 2 ^ f.fb := by rw [← pow_add, Nat.add_sub_cancel' htop]

/-- A fraction of FDECOMP with the hidden bit, in units of the significand (R132, R140). -/
theorem decomp_significand {f : FloatFmt} (hf : f.Regular) {p : Nat} (hz : f.isZero p = false) :
    2 ^ f.fb + (f.decomp p).2 = f.sig p * 2 ^ (f.fb - Nat.log2 (f.sig p)) := by
  have htop : 2 ^ Nat.log2 (f.sig p) ≤ f.sig p := Nat.log2_self_le (sig_ne_zero hz)
  have hfull : 2 ^ f.fb = 2 ^ Nat.log2 (f.sig p) * 2 ^ (f.fb - Nat.log2 (f.sig p)) := by
    rw [← pow_add, Nat.add_sub_cancel' (log2_sig_le hz)]
  rw [decomp_eq hf, hfull, ← Nat.add_mul, Nat.add_sub_cancel' htop]

/-- A finite pattern is its decomposition: the sign, and the fraction with the hidden bit at the exponent. -/
theorem value_eq_decomp {f : FloatFmt} (hf : f.Regular) {p : Nat} (hz : f.isZero p = false) :
    f.value p = signFactor (f.signOf p) * ((2 : ℚ) ^ f.fb + (f.decomp p).2) *
      (2 : ℚ) ^ ((f.decomp p).1 - (f.fb : ℤ)) := by
  have hsig : (2 : ℚ) ^ f.fb + (f.decomp p).2 = f.sig p * (2 : ℚ) ^ (f.fb - Nat.log2 (f.sig p)) := by
    exact_mod_cast decomp_significand hf hz
  have hexp : f.scale p = ((f.fb - Nat.log2 (f.sig p) : Nat) : ℤ) + ((f.decomp p).1 - (f.fb : ℤ)) := by
    have := log2_sig_le hz
    rw [decomp_eq hf]
    push_cast [Nat.cast_sub this]
    ring
  rw [value_eq, hsig, hexp, zpow_add₀ two_ne_zero, zpow_natCast]
  ring

/-- Settles O41: the value is the significand at its scale (`abs_value`), so its logarithm is that of
`log_natCast_mul_zpow`, and its quotient by that power of two is the fraction with the hidden bit
(`value_eq_decomp`). -/
theorem decompositionIsTheExactFormula : Obligations.DecompositionIsTheExactFormula := by
  intro f p hfmt _ _ hz
  have hf := regular_of_isFloatFmt hfmt
  refine ⟨?_, ?_, decomp_frac_lt hf hz⟩
  · rw [abs_value, log_natCast_mul_zpow (sig_ne_zero hz), decomp_eq hf]
  · have habs : |f.value p| = ((2 : ℚ) ^ f.fb + (f.decomp p).2) * (2 : ℚ) ^ ((f.decomp p).1 - (f.fb : ℤ)) := by
      rw [value_eq_decomp hf hz, mul_assoc, abs_mul, abs_signFactor, one_mul, abs_of_nonneg (by positivity)]
    have hpow : (2 : ℚ) ^ f.fb ≠ 0 := by positivity
    have hexp : (2 : ℚ) ^ (f.decomp p).1 ≠ 0 := by positivity
    rw [habs, zpow_sub₀ two_ne_zero, zpow_natCast]
    field_simp
    ring

/-! ### Recomposition -/

/-- The exponent and fraction bits of FRECOMP, as one number (R136, R144). -/
def FloatFmt.recompLow (f : FloatFmt) (e : Int) (n : Nat) : Nat :=
  if f.minExp ≤ e then (e + f.bias).toNat * 2 ^ f.fb + n else roundShift (2 ^ f.fb + n) (f.minExp - e).toNat

theorem recomp_eq_pack (f : FloatFmt) (sign : Bool) (e : Int) (n : Nat) :
    f.recomp sign e n = f.pack sign (f.recompLow e n) := (apply_ite (f.pack sign) _ _ _).symm

theorem recompLow_normal {f : FloatFmt} {e : Int} (he : 1 - (f.bias : Int) ≤ e) (n : Nat) :
    f.recompLow e n = (e + f.bias).toNat * 2 ^ f.fb + n := if_pos he

theorem recompLow_subnormal {f : FloatFmt} {e : Int} {sh : Nat} (hsh : (sh : Int) = 1 - f.bias - e) (hpos : 1 ≤ sh)
    (n : Nat) : f.recompLow e n = roundShift (2 ^ f.fb + n) sh := by
  have hlt : ¬ f.minExp ≤ e := by
    unfold FloatFmt.minExp
    omega
  have hshift : (f.minExp - e).toNat = sh := by
    unfold FloatFmt.minExp
    omega
  rw [FloatFmt.recompLow, if_neg hlt, hshift]

/-- `roundShift` gives the nearest integer, the even one of two that are equally near (D17). -/
theorem roundShift_nearest (sig : Nat) {sh : Nat} (hsh : 1 ≤ sh) :
    2 * |(roundShift sig sh : Int) * 2 ^ sh - sig| ≤ 2 ^ sh ∧
      (2 * |(roundShift sig sh : Int) * 2 ^ sh - sig| = 2 ^ sh → roundShift sig sh % 2 = 0) := by
  obtain ⟨k, rfl⟩ := Nat.exists_eq_add_of_le' hsh
  have hdiv : (2 : Int) ^ (k + 1) * (sig / 2 ^ (k + 1) : Nat) + (sig % 2 ^ (k + 1) : Nat) = sig := by
    exact_mod_cast Nat.div_add_mod sig (2 ^ (k + 1))
  have hmod : sig % 2 ^ (k + 1) < 2 ^ (k + 1) := Nat.mod_lt _ (Nat.two_pow_pos _)
  have hhalf : (2 : Int) ^ (k + 1) = 2 * (2 ^ k : Nat) := by push_cast; ring
  unfold roundShift
  simp only [Nat.add_sub_cancel]
  generalize sig / 2 ^ (k + 1) = q at *
  generalize sig % 2 ^ (k + 1) = r at *
  rw [pow_succ] at hmod
  generalize 2 ^ k = half at *
  split
  · have hdist : ((q + 1 : Nat) : Int) * 2 ^ (k + 1) - sig = 2 ^ (k + 1) - r := by
      push_cast
      linarith
    rw [hdist, hhalf, abs_of_nonneg (by omega)]
    omega
  · have hdist : ((q : Nat) : Int) * 2 ^ (k + 1) - sig = -r := by linarith
    rw [hdist, hhalf, abs_neg, abs_of_nonneg (by omega)]
    omega

/-- Rounding stays between the multiples the number is between. -/
theorem roundShift_bounds {sig sh a b : Nat} (hsh : 1 ≤ sh) (ha : a * 2 ^ sh ≤ sig) (hb : sig ≤ b * 2 ^ sh) :
    a ≤ roundShift sig sh ∧ roundShift sig sh ≤ b := by
  obtain ⟨hnear, -⟩ := roundShift_nearest sig hsh
  have hpos : (0 : Int) < 2 ^ sh := by positivity
  have ha' : (a : Int) * 2 ^ sh ≤ sig := by exact_mod_cast ha
  have hb' : (sig : Int) ≤ b * 2 ^ sh := by exact_mod_cast hb
  obtain ⟨hlow, hhigh⟩ := abs_lt.1 (show |(roundShift sig sh : Int) * 2 ^ sh - sig| < 2 ^ sh by linarith)
  have hlower : (a : Int) < roundShift sig sh + 1 := lt_of_mul_lt_mul_right (by linarith) hpos.le
  have hupper : (roundShift sig sh : Int) < b + 1 := lt_of_mul_lt_mul_right (by linarith) hpos.le
  omega

/-- A multiple of the unit is not rounded. -/
theorem roundShift_mul (q : Nat) {sh : Nat} (hsh : 1 ≤ sh) : roundShift (q * 2 ^ sh) sh = q :=
  have h := roundShift_bounds (sig := q * 2 ^ sh) hsh le_rfl le_rfl
  le_antisymm h.2 h.1

/-- The two ways of FRECOMP on the range of the exponent field: a normal number, or the significand rounded by one or two
places (R136, R144). -/
theorem recompLow_cases {f : FloatFmt} {e : Int} (n : Nat) (hmin : -(f.bias : Int) - 1 ≤ e) (hmax : e ≤ f.bias) :
    (∃ E : Nat, (E : Int) = e + f.bias ∧ 1 ≤ E ∧ E ≤ 2 * f.bias ∧ f.recompLow e n = E * 2 ^ f.fb + n) ∨
    (∃ sh : Nat, (sh : Int) = 1 - f.bias - e ∧ 1 ≤ sh ∧ sh ≤ 2 ∧ f.recompLow e n = roundShift (2 ^ f.fb + n) sh) := by
  by_cases he : 1 - (f.bias : Int) ≤ e
  · exact .inl ⟨(e + f.bias).toNat, by omega, by omega, by omega, recompLow_normal he n⟩
  · have hsh : ((1 - f.bias - e).toNat : Int) = 1 - f.bias - e := by omega
    exact .inr ⟨(1 - f.bias - e).toNat, hsh, by omega, by omega, recompLow_subnormal hsh (by omega) n⟩

/-- A significand rounded by one or two places is at least one and at most `2^fb` units. -/
theorem roundShift_significand {f : FloatFmt} (hf : f.Regular) {n sh : Nat} (hn : n < 2 ^ f.fb) (h1 : 1 ≤ sh)
    (h2 : sh ≤ 2) : 1 ≤ roundShift (2 ^ f.fb + n) sh ∧ roundShift (2 ^ f.fb + n) sh ≤ 2 ^ f.fb := by
  have hlow : 2 ^ sh ≤ 2 ^ f.fb := Nat.pow_le_pow_right (by decide) (h2.trans hf.fb_ge)
  have hhigh : 2 ^ 1 ≤ 2 ^ sh := Nat.pow_le_pow_right (by decide) h1
  exact roundShift_bounds h1 (by omega) (by nlinarith)

/-- The number FRECOMP makes is not zero and leaves the exponent field below all ones. -/
theorem recompLow_bounds {f : FloatFmt} (hf : f.Regular) {e : Int} {n : Nat} (hn : n < 2 ^ f.fb)
    (hmin : -(f.bias : Int) - 1 ≤ e) (hmax : e ≤ f.bias) :
    1 ≤ f.recompLow e n ∧ f.recompLow e n < (2 ^ f.eb - 1) * 2 ^ f.fb := by
  have hexp : 2 ^ f.eb - 1 = 2 * f.bias + 1 := by rw [hf.full]; omega
  have hbias := hf.fb_le
  have hfb := hf.fb_ge
  rw [hexp]
  rcases recompLow_cases n hmin hmax with ⟨E, -, hE, hE', hlow⟩ | ⟨sh, -, h1, h2, hlow⟩
  · rw [hlow]
    constructor <;> nlinarith
  · obtain ⟨hone, hle⟩ := roundShift_significand hf hn h1 h2
    rw [hlow]
    exact ⟨hone, by nlinarith⟩

theorem recompLow_lt {f : FloatFmt} (hf : f.Regular) {e : Int} {n : Nat} (hn : n < 2 ^ f.fb)
    (hmin : -(f.bias : Int) - 1 ≤ e) (hmax : e ≤ f.bias) : f.recompLow e n < 2 ^ (f.eb + f.fb) := by
  refine (recompLow_bounds hf hn hmin hmax).2.trans_le ?_
  rw [pow_add]
  exact Nat.mul_le_mul_right _ (Nat.sub_le _ _)

/-- A recomposed pattern is finite (R136, R144). -/
theorem recomp_finite {f : FloatFmt} (hf : f.Regular) (sign : Bool) {e : Int} {n : Nat} (hn : n < 2 ^ f.fb)
    (hmin : -(f.bias : Int) - 1 ≤ e) (hmax : e ≤ f.bias) : f.unsupported (f.recomp sign e n) = false := by
  rw [recomp_eq_pack, FloatFmt.unsupported, expOf_pack sign (recompLow_lt hf hn hmin hmax), beq_eq_false_iff_ne]
  exact (Nat.div_lt_of_lt_mul (Nat.mul_comm _ _ ▸ (recompLow_bounds hf hn hmin hmax).2)).ne

theorem recomp_lt {f : FloatFmt} (hf : f.Regular) (sign : Bool) {e : Int} {n : Nat} (hn : n < 2 ^ f.fb)
    (hmin : -(f.bias : Int) - 1 ≤ e) (hmax : e ≤ f.bias) : f.recomp sign e n < 2 ^ (1 + f.eb + f.fb) := by
  rw [recomp_eq_pack]
  exact pack_lt sign (recompLow_lt hf hn hmin hmax)

/-- In the range of normal numbers FRECOMP is exact (R136, R144). -/
theorem value_recomp_normal {f : FloatFmt} (hf : f.Regular) (sign : Bool) {e : Int} {n : Nat} (hn : n < 2 ^ f.fb)
    (hmin : 1 - (f.bias : Int) ≤ e) (hmax : e ≤ f.bias) : f.value (f.recomp sign e n) =
      signFactor sign * ((2 : ℚ) ^ f.fb + n) * (2 : ℚ) ^ (e - (f.fb : ℤ)) := by
  have hE : ((e + f.bias).toNat : Int) = e + f.bias := by omega
  have hE' : (e + f.bias).toNat < 2 ^ f.eb := by rw [hf.full]; omega
  rw [recomp_eq_pack, recompLow_normal hmin, value_pack_normal sign (by omega) hE' hn, hE, add_sub_cancel_right]

/-- Settles O42: on normal exponents FRECOMP is exact (`value_recomp_normal`), below them it counts units of the least
subnormal (`value_pack_small`), the nearest number of them (`roundShift_nearest`). -/
theorem recompositionIsExactOrNearestEven : Obligations.RecompositionIsExactOrNearestEven := by
  intro f sign e n hfmt hn hmin hmax
  have hf := regular_of_isFloatFmt hfmt
  refine ⟨recomp_finite hf sign hn hmin hmax, recomp_lt hf sign hn hmin hmax,
    fun hnormal => value_recomp_normal hf sign hn hnormal hmax, fun hsub => ?_⟩
  rcases recompLow_cases n hmin hmax with ⟨E, hE, h1, -, -⟩ | ⟨sh, hsh, h1, h2, hlow⟩
  · omega
  · obtain ⟨hnear, heven⟩ := roundShift_nearest (2 ^ f.fb + n) h1
    refine ⟨roundShift (2 ^ f.fb + n) sh, sh, hsh, ?_, by exact_mod_cast hnear, fun htie => heven (by exact_mod_cast htie)⟩
    rw [recomp_eq_pack, hlow]
    exact value_pack_small hf sign (roundShift_significand hf hn h1 h2).2

end Sys2Proof.Machine
end

section
/-! PROOFS. The float commands of spec/42_float_packer.md: readDouble (R145), what a read never gives (R138), and the round
trips through a transfer (R139, R146). -/

namespace Sys2Proof.Machine

/-! ### Reading a float -/

theorem exec_readDouble (s : State) :
    exec .readDouble s = finish ((readFloating float64 s).bind fun p t => .ok { value := zext64 p, out := [] } t) := rfl

/-- Settles O46: readDouble is `readFloating` in the format of 11 exponent and 52 fraction bits
(`readsField_of_exec_readFloating`). -/
theorem readDoubleGivesTheRecomposition : Obligations.ReadDoubleGivesTheRecomposition :=
  fun _ hi => readsField_of_exec_readFloating (f := float64) (by decide) exec_readDouble hi

/-- The pattern a read of the format `f` gives at the cursor (R137, R145). -/
def State.floatAt (s : State) (f : FloatFmt) : Nat :=
  f.valueOf (s.bitAt s.cursor) (s.signedFieldAt (s.cursor + 1) f.eb) (s.fieldAt (s.cursor + 1 + f.eb) f.fb)

/-- A command that is `readFloating` answers the pattern at the cursor. -/
theorem readsField_floatAt {i : Instr} {f : FloatFmt} (he : 1 ≤ f.eb)
    (hexec : ∀ s, exec i s = finish ((readFloating f s).bind fun p t => .ok { value := zext64 p, out := [] } t))
    {s : State} (hi : s.Inv) : ReadsField i s (1 + f.eb + f.fb) (zext64 (s.floatAt f)) :=
  finish_reads (reads_floating f he) hexec s hi.cursorInside

/-- A read that ends with status 0 answers its field. -/
theorem value_of_readsField {i : Instr} {s t : State} {n : Nat} {v : Val} {r : Response} (h : ReadsField i s n v)
    (ht : exec i s = .next t) (hr : t.lastResponse = some r) (hstatus : r.status = 0) : r.value = v := by
  obtain ⟨hread, hcut⟩ := h
  by_cases hreadable : s.Readable n
  · obtain rfl := Host.Outcome.next.inj ((hread hreadable).symm.trans ht)
    obtain rfl := Option.some.inj ((answered_lastResponse _ _ _).symm.trans hr)
    rfl
  · obtain ⟨t', ht', hfault⟩ := hcut hreadable
    obtain rfl := Host.Outcome.next.inj (ht'.symm.trans ht)
    obtain ⟨value, hreport⟩ := hfault.report
    rw [State.lastResponse, hreport, List.getLast?_concat] at hr
    obtain rfl := Option.some.inj hr
    exact absurd hstatus (FaultCode.status_ne_zero .outOfBounds)

/-! ### What a read never gives -/

/-- A zero is finite. -/
theorem unsupported_zero {f : FloatFmt} (hf : f.Regular) : f.unsupported 0 = false := by
  have hexp : f.expOf 0 = 0 := by simp [FloatFmt.expOf]
  have := hf.full
  rw [FloatFmt.unsupported, hexp, beq_eq_false_iff_ne]
  omega

/-- The exponent a read finds is in the range of FRECOMP, because it is a signed field (R72, R136). -/
theorem signedFieldAt_exp {f : FloatFmt} (hf : f.Regular) (s : State) (p : Nat) :
    -(f.bias : Int) - 1 ≤ s.signedFieldAt p f.eb ∧ s.signedFieldAt p f.eb ≤ f.bias := by
  have hhalf : (2 : Int) ^ (f.eb - 1) = f.bias + 1 := by exact_mod_cast hf.half
  have hrange := signedFieldAt_range s p f.eb
  omega

/-- A number FRECOMP makes has the bits of one only for the exponent and the fraction of one (R138). -/
theorem recompLow_eq_one {f : FloatFmt} (hf : f.Regular) {e : Int} {n : Nat} (hn : n < 2 ^ f.fb)
    (hmin : -(f.bias : Int) - 1 ≤ e) (hmax : e ≤ f.bias) (h : f.recompLow e n = f.bias * 2 ^ f.fb) : e = 0 ∧ n = 0 := by
  have hbias := hf.fb_le
  have hfb := hf.fb_ge
  have hpos := Nat.two_pow_pos f.fb
  rcases recompLow_cases n hmin hmax with ⟨E, hE, -, -, hlow⟩ | ⟨sh, -, h1, h2, hlow⟩
  · have heq : 2 ^ f.fb * E + n = 2 ^ f.fb * f.bias + 0 := by
      rw [Nat.mul_comm, ← hlow, h, Nat.mul_comm, Nat.add_zero]
    have hEbias : E = f.bias := by
      have := congrArg (· / 2 ^ f.fb) heq
      simpa [Nat.mul_add_div hpos, Nat.div_eq_of_lt hn, hpos.ne'] using this
    have hnzero : n = 0 := by
      have := congrArg (· % 2 ^ f.fb) heq
      simpa [Nat.mul_add_mod, Nat.mod_eq_of_lt hn] using this
    exact ⟨by omega, hnzero⟩
  · have hle := (roundShift_significand hf hn h1 h2).2
    rw [← hlow, h] at hle
    nlinarith

/-- What a read gives is finite, fits its format, and is no negative zero and no one (R138 item 2). -/
theorem floatAt_spec {f : FloatFmt} (hf : f.Regular) (s : State) :
    f.unsupported (s.floatAt f) = false ∧ s.floatAt f < 2 ^ (1 + f.eb + f.fb) ∧ s.floatAt f ≠ f.pack true 0 ∧
      ∀ sign, s.floatAt f ≠ f.pack sign (f.bias * 2 ^ f.fb) := by
  have hn := fieldAt_lt s f.fb (s.cursor + 1 + f.eb)
  obtain ⟨hmin, hmax⟩ := signedFieldAt_exp hf s (s.cursor + 1)
  have hzero : (0 : Nat) < 2 ^ (f.eb + f.fb) := Nat.two_pow_pos _
  have hbias := hf.fb_le
  have hfb := hf.fb_ge
  have hone : f.bias * 2 ^ f.fb < 2 ^ (f.eb + f.fb) := by
    rw [pow_add, hf.full]
    exact Nat.mul_lt_mul_of_pos_right (by omega) (Nat.two_pow_pos _)
  unfold State.floatAt FloatFmt.valueOf
  split
  · have hpack : (0 : Nat) = f.pack false 0 := by simp [FloatFmt.pack]
    refine ⟨unsupported_zero hf, Nat.two_pow_pos _, fun h => ?_, fun sign h => ?_⟩
    · exact Bool.false_ne_true (pack_injective hzero hzero (hpack.symm.trans h)).1
    · have := (pack_injective hzero hone (hpack.symm.trans h)).2
      have := Nat.mul_pos (by omega : 0 < f.bias) (Nat.two_pow_pos f.fb)
      omega
  · rename_i hnonzero
    have hlow := recompLow_lt hf hn hmin hmax
    refine ⟨recomp_finite hf _ hn hmin hmax, recomp_lt hf _ hn hmin hmax, fun h => ?_, fun sign h => ?_⟩
    · rw [recomp_eq_pack] at h
      have := (pack_injective hlow hzero h).2
      have := (recompLow_bounds hf hn hmin hmax).1
      omega
    · rw [recomp_eq_pack] at h
      exact hnonzero (recompLow_eq_one hf hn hmin hmax (pack_injective hlow hone h).2)

/-- The value port holds the patterns of both formats. -/
theorem toNat_zext64 {p : Nat} (hp : p < 2 ^ 64) : (zext64 p).toNat = p := by
  rw [zext64, BitVec.toNat_ofNat, Nat.mod_eq_of_lt hp]

/-- A finite pattern on the value port has no exponent field of ones. -/
theorem exp_ne_of_finite {f : FloatFmt} {p : Nat} (hp : p < 2 ^ 64) (h : f.unsupported p = false) :
    (zext64 p).extractLsb' f.fb f.eb ≠ BitVec.allOnes f.eb := by
  rw [Ne, ← unsupported_iff, toNat_zext64 hp, h]
  exact Bool.false_ne_true

/-- A pattern other than a number below `2^64` is another value on the port. -/
theorem zext64_ne {p : Nat} (hp : p < 2 ^ 64) {c : Val} (h : p ≠ c.toNat) : zext64 p ≠ c := fun heq =>
  h (by rw [← heq, toNat_zext64 hp])

/-- Settles O47: the patterns a read gives are those of `floatAt_spec`, and the constants are packed from theirs. -/
theorem readsNeverGiveInfinityNaNOrOne : Obligations.ReadsNeverGiveInfinityNaNOrOne := by
  refine fun s t r hi hr hstatus => ⟨fun ht => ?_, fun ht => ?_⟩
  · obtain ⟨hfinite, hlt, hnegzero, hones⟩ := floatAt_spec regular_float32 s
    have hfits : s.floatAt float32 < 2 ^ 64 := hlt.trans (by decide)
    rw [value_of_readsField (readsField_floatAt (by decide) exec_readFloat hi) ht hr hstatus]
    refine ⟨exp_ne_of_finite hfits hfinite, ?_, zext64_ne hfits hnegzero, zext64_ne hfits (hones false),
      zext64_ne hfits (hones true)⟩
    have hhigh : s.floatAt float32 / 2 ^ 32 = 0 := Nat.div_eq_of_lt hlt
    refine BitVec.eq_of_toNat_eq ?_
    rw [BitVec.extractLsb'_toNat, Nat.shiftRight_eq_div_pow, toNat_zext64 hfits, hhigh]
    rfl
  · obtain ⟨hfinite, hlt, hnegzero, hones⟩ := floatAt_spec regular_float64 s
    rw [value_of_readsField (readsField_floatAt (by decide) exec_readDouble hi) ht hr hstatus]
    exact ⟨exp_ne_of_finite hlt hfinite, zext64_ne hlt hnegzero, zext64_ne hlt (hones false), zext64_ne hlt (hones true)⟩

/-! ### The round trip on numbers -/

/-- The exponent a signed field of `eb` bits keeps of `e`: the sign and the low bits of the magnitude (R114, R116). -/
def FloatFmt.cutExp (f : FloatFmt) (e : Int) : Int := signedOf (signBit e) (magnitude e % 2 ^ (f.eb - 1))

/-- The pattern read back after a finite pattern was written (R139, R146). -/
def FloatFmt.roundTrip (f : FloatFmt) (p : Nat) : Nat :=
  if f.isZero p then 0 else f.valueOf (f.signOf p) (f.cutExp (f.decomp p).1) (f.decomp p).2

/-- An exponent in range is kept. -/
theorem cutExp_of_range {f : FloatFmt} (hf : f.Regular) {e : Int} (hmin : -(f.bias : Int) - 1 ≤ e)
    (hmax : e ≤ f.bias) : f.cutExp e = e := by
  have hhalf : (2 : Int) ^ (f.eb - 1) = f.bias + 1 := by exact_mod_cast hf.half
  rw [FloatFmt.cutExp, Nat.mod_eq_of_lt (magnitude_lt (by omega) (by omega)), signedOf_magnitude]

/-- An exponent below the range comes back one range higher. -/
theorem cutExp_below {f : FloatFmt} (hf : f.Regular) {e : Int} (hmin : -(2 * f.bias : Int) - 2 ≤ e)
    (hmax : e < -(f.bias : Int) - 1) : f.cutExp e = e + (f.bias + 1) := by
  have hneg : e < 0 := by omega
  have hmag := magnitude_of_neg hneg
  have hmod : magnitude e % (f.bias + 1) = magnitude e - (f.bias + 1) := by
    rw [Nat.mod_eq_sub_mod (by omega), Nat.mod_eq_of_lt (by omega)]
  rw [FloatFmt.cutExp, hf.half, hmod, signBit, decide_eq_true hneg, signedOf, if_pos rfl]
  omega

theorem roundTrip_of_isZero {f : FloatFmt} {p : Nat} (hz : f.isZero p = true) : f.roundTrip p = 0 := if_pos hz

/-- A pattern that is no zero and whose exponent is read back other than 0, or whose fraction is not 0, is recomposed. -/
theorem roundTrip_of_nonzero {f : FloatFmt} {p : Nat} (hz : f.isZero p = false)
    (h : ¬ (f.cutExp (f.decomp p).1 = 0 ∧ (f.decomp p).2 = 0)) :
    f.roundTrip p = f.recomp (f.signOf p) (f.cutExp (f.decomp p).1) (f.decomp p).2 := by
  rw [FloatFmt.roundTrip, hz, if_neg Bool.false_ne_true, FloatFmt.valueOf, if_neg h]

/-- A normal number decomposes into its own fields (R132, R140). -/
theorem decomp_normal {f : FloatFmt} {p : Nat} (hexp : f.expOf p ≠ 0) :
    f.decomp p = ((f.expOf p : Int) - f.bias, f.fracOf p) := if_neg hexp

theorem isZero_of_exp {f : FloatFmt} {p : Nat} (hexp : f.expOf p ≠ 0) : f.isZero p = false := by
  simp [FloatFmt.isZero, hexp]

theorem isZero_of_frac {f : FloatFmt} {p : Nat} (hfrac : f.fracOf p ≠ 0) : f.isZero p = false := by
  simp [FloatFmt.isZero, hfrac]

/-- A finite normal number other than one comes back (R139, R146). -/
theorem roundTrip_normal {f : FloatFmt} (hf : f.Regular) {p : Nat} (hp : p < 2 ^ (1 + f.eb + f.fb))
    (hfinite : f.unsupported p = false) (hexp : f.expOf p ≠ 0)
    (hone : ∀ sign, p ≠ f.pack sign (f.bias * 2 ^ f.fb)) : f.roundTrip p = p := by
  have hmax : f.expOf p < 2 * f.bias + 1 := by
    have hne : f.expOf p ≠ 2 ^ f.eb - 1 := by simpa [FloatFmt.unsupported] using hfinite
    have hlt := expOf_lt f p
    rw [hf.full] at hne hlt
    omega
  have hcut : f.cutExp (f.decomp p).1 = (f.expOf p : Int) - f.bias := by
    rw [decomp_normal hexp, cutExp_of_range hf] <;> simp only <;> omega
  have hfields := pack_fields hp
  rw [roundTrip_of_nonzero (isZero_of_exp hexp), hcut, decomp_normal hexp, recomp_eq_pack,
    recompLow_normal (by omega), Int.sub_add_cancel, Int.toNat_natCast, hfields]
  rw [hcut, decomp_normal hexp]
  rintro ⟨he, hn⟩
  have hbias : f.expOf p = f.bias := by omega
  simp only at hn
  rw [hn, hbias, Nat.add_zero] at hfields
  exact hone _ hfields.symm

/-- The exponent of a subnormal number: the top bit of its fraction at the least scale (R132, R140). -/
theorem decomp_subnormal_exp {f : FloatFmt} (hf : f.Regular) {p : Nat} (hexp : f.expOf p = 0) :
    (f.decomp p).1 = Nat.log2 (f.fracOf p) + (1 - f.bias - f.fb) := by
  rw [decomp_eq hf, log2_sig, if_pos hexp, FloatFmt.scale, if_pos hexp]

/-- A subnormal number with one of the two upper fraction bits set comes back: it is shifted up by one or two places and
down again (R139, R146). -/
theorem roundTrip_subnormal {f : FloatFmt} (hf : f.Regular) {p : Nat} (hp : p < 2 ^ (1 + f.eb + f.fb))
    (hexp : f.expOf p = 0) (hfrac : 2 ^ (f.fb - 2) ≤ f.fracOf p) : f.roundTrip p = p := by
  have hfb := hf.fb_ge
  have hbias := hf.fb_le
  have hne : f.fracOf p ≠ 0 := ((Nat.two_pow_pos _).trans_le hfrac).ne'
  have hz := isZero_of_frac hne
  have htop : f.fb - 2 ≤ Nat.log2 (f.fracOf p) := (Nat.le_log2 hne).2 hfrac
  have htop' : Nat.log2 (f.fracOf p) < f.fb := (Nat.log2_lt hne).2 (fracOf_lt f p)
  have he := decomp_subnormal_exp hf hexp
  have hcut : f.cutExp (f.decomp p).1 = (f.decomp p).1 := cutExp_of_range hf (by omega) (by omega)
  have hsig : 2 ^ f.fb + (f.decomp p).2 = f.fracOf p * 2 ^ (f.fb - Nat.log2 (f.fracOf p)) := by
    rw [decomp_significand hf hz, FloatFmt.sig, if_pos hexp]
  have hfields := pack_fields hp
  rw [hexp, Nat.zero_mul, Nat.zero_add] at hfields
  rw [roundTrip_of_nonzero hz (by rw [hcut]; omega), hcut, recomp_eq_pack,
    recompLow_subnormal (sh := f.fb - Nat.log2 (f.fracOf p)) (by omega) (by omega), hsig,
    roundShift_mul _ (by omega), hfields]

/-- A smaller subnormal number comes back scaled by the range of the exponent field (R139, R146). -/
theorem roundTrip_least {f : FloatFmt} (hf : f.Regular) {p : Nat} (hexp : f.expOf p = 0) (hne : f.fracOf p ≠ 0)
    (hfrac : f.fracOf p < 2 ^ (f.fb - 2)) :
    f.roundTrip p < 2 ^ (1 + f.eb + f.fb) ∧ f.value (f.roundTrip p) = f.value p * 2 ^ (f.bias + 1) := by
  have hfb := hf.fb_ge
  have hbias := hf.fb_le
  have hz := isZero_of_frac hne
  have hn := decomp_frac_lt hf hz
  have htop : Nat.log2 (f.fracOf p) < f.fb - 2 := (Nat.log2_lt hne).2 hfrac
  have he := decomp_subnormal_exp hf hexp
  have hcut : f.cutExp (f.decomp p).1 = (f.decomp p).1 + (f.bias + 1) := cutExp_below hf (by omega) (by omega)
  have hscale : (2 : ℚ) ^ ((f.decomp p).1 + (f.bias + 1) - (f.fb : ℤ)) =
      (2 : ℚ) ^ ((f.decomp p).1 - (f.fb : ℤ)) * 2 ^ (f.bias + 1) := by
    rw [← zpow_natCast, ← zpow_add₀ two_ne_zero]
    congr 1
    push_cast
    ring
  rw [roundTrip_of_nonzero hz (by rw [hcut]; omega), hcut]
  refine ⟨recomp_lt hf _ hn (by omega) (by omega), ?_⟩
  rw [value_recomp_normal hf _ hn (by omega) (by omega), value_eq_decomp hf hz, hscale]
  ring

/-! ### The round trip of the commands -/

/-- The bits of a float field at position 0 are read back as its sign, its cut exponent and its fraction. -/
theorem floatAt_of_floatFieldBit {f : FloatFmt} (hf : f.Regular) {s : State} {sign : Bool} {e : Int} {n : Nat}
    (hcursor : s.cursor = 0) (hn : n < 2 ^ f.fb)
    (hbits : ∀ i, i < 1 + f.eb + f.fb → s.bitAt i = floatFieldBit f.eb sign e n i) :
    s.floatAt f = f.valueOf sign (f.cutExp e) n := by
  have heb := hf.eb_pos
  have hsign : s.bitAt 0 = sign := hbits 0 (by omega)
  have hexp : s.signedFieldAt 1 f.eb = f.cutExp e := signedFieldAt_eq heb fun i hi => by
    rw [hbits (1 + i) (by omega), floatFieldBit, if_neg (by omega), if_pos (by omega), Nat.add_sub_cancel_left]
  have hfrac : s.fieldAt (1 + f.eb) f.fb = n := by
    rw [fieldAt_eq_mod s (1 + f.eb) f.fb n, Nat.mod_eq_of_lt hn]
    intro i hi
    rw [hbits (1 + f.eb + i) (by omega), floatFieldBit, if_neg (by omega), if_neg (by omega)]
    congr 1
    omega
  rw [State.floatAt, hcursor, Nat.zero_add, hsign, hexp, hfrac]

/-- A zero is written as the float field of zeros (R133). -/
theorem writes_addFloating_zeros {f : FloatFmt} (hf : f.Regular) {p : Nat} (hu : f.unsupported p = false)
    (hz : f.isZero p = true) : Writes (addFloating f p) (1 + f.eb + f.fb) (floatFieldBit f.eb false 0 0) :=
  (writes_addFloating_zero f hf.eb_pos p hu hz).congr fun i _ => by simp [floatFieldBit, signedFieldBit]

theorem valueOf_zero (f : FloatFmt) (sign : Bool) : f.valueOf sign (f.cutExp 0) 0 = 0 :=
  if_pos ⟨by simp [FloatFmt.cutExp, signBit, magnitude, signedOf], rfl⟩

/-- A float command, a transfer and the read of its format answer `roundTrip` (R205). -/
theorem readsBack_float {i read : Instr} {f : FloatFmt} {p : Nat} (hf : f.Regular) (hfinite : f.unsupported p = false)
    (hwrite : ∀ s, exec i s = finish ((addFloating f p s).bind fun _ t => .ok Result.none t))
    (hread : ∀ s, exec read s = finish ((readFloating f s).bind fun p t => .ok { value := zext64 p, out := [] } t))
    (s : State) (hcap : ∀ cap, s.bufCap = some cap → 1 + f.eb + f.fb ≤ 8 * cap) :
    ∃ r, ReadsBack s [i] read r ∧ r.status = 0 ∧ r.value = zext64 (f.roundTrip p) := by
  cases hz : f.isZero p with
  | true =>
    obtain ⟨v, r, hcursor, hbits, hback, hstatus, hvalue⟩ := readsBack_of_transfer
      (writes_addFloating_zeros hf hfinite hz) hwrite (fun v hi => readsField_floatAt hf.eb_pos hread hi) s hcap
    have hfloat := floatAt_of_floatFieldBit hf hcursor (Nat.two_pow_pos _) hbits
    refine ⟨r, hback, hstatus, ?_⟩
    rw [hvalue, hfloat, roundTrip_of_isZero hz, valueOf_zero]
  | false =>
    obtain ⟨v, r, hcursor, hbits, hback, hstatus, hvalue⟩ := readsBack_of_transfer
      (writes_addFloating f hf.eb_pos p hfinite hz) hwrite (fun v hi => readsField_floatAt hf.eb_pos hread hi) s hcap
    have hfloat := floatAt_of_floatFieldBit hf hcursor (decomp_frac_lt hf hz) hbits
    refine ⟨r, hback, hstatus, ?_⟩
    rw [hvalue, hfloat, FloatFmt.roundTrip, hz, if_neg Bool.false_ne_true]

theorem finite_of_exp_ne {w : Nat} {f : FloatFmt} {P : BitVec w} (h : P.extractLsb' f.fb f.eb ≠ BitVec.allOnes f.eb) :
    f.unsupported P.toNat = false := Bool.eq_false_iff.2 (mt (unsupported_iff f P).1 h)

theorem expOf_eq_zero_iff {w : Nat} (f : FloatFmt) (P : BitVec w) :
    f.expOf P.toNat = 0 ↔ P.extractLsb' f.fb f.eb = 0 := by
  rw [BitVec.toNat_eq, toNat_extractLsb'_exp]
  rfl

theorem fracOf_eq_zero_iff {w : Nat} (f : FloatFmt) (P : BitVec w) :
    f.fracOf P.toNat = 0 ↔ P.extractLsb' 0 f.fb = 0 := by
  rw [BitVec.toNat_eq, toNat_extractLsb'_frac]
  rfl

/-- The rows of the tables of R139 and R146 on the fields of the pattern word, but for the four constants read back as
zero. -/
theorem readsBack_float_fields {w : Nat} {i read : Instr} {f : FloatFmt} {P : BitVec w} (hw : w = 1 + f.eb + f.fb)
    (hw' : w ≤ 64) (hf : f.Regular) (hfinite : P.extractLsb' f.fb f.eb ≠ BitVec.allOnes f.eb)
    (hwrite : ∀ s, exec i s = finish ((addFloating f P.toNat s).bind fun _ t => .ok Result.none t))
    (hread : ∀ s, exec read s = finish ((readFloating f s).bind fun p t => .ok { value := zext64 p, out := [] } t))
    (s : State) (hcap : ∀ cap, s.bufCap = some cap → 1 + f.eb + f.fb ≤ 8 * cap) :
    ∃ r, ReadsBack s [i] read r ∧ r.status = 0 ∧ (f.roundTrip P.toNat = 0 → r.value = 0) ∧
      (P.extractLsb' f.fb f.eb ≠ 0 → (∀ sign, P.toNat ≠ f.pack sign (f.bias * 2 ^ f.fb)) → r.value = P.setWidth 64) ∧
      (P.extractLsb' f.fb f.eb = 0 → 2 ^ (f.fb - 2) ≤ (P.extractLsb' 0 f.fb).toNat → r.value = P.setWidth 64) ∧
      (P.extractLsb' f.fb f.eb = 0 → P.extractLsb' 0 f.fb ≠ 0 → (P.extractLsb' 0 f.fb).toNat < 2 ^ (f.fb - 2) →
        f.value r.value.toNat = f.value P.toNat * 2 ^ (f.bias + 1)) := by
  have hu := finite_of_exp_ne hfinite
  have hP : P.toNat < 2 ^ (1 + f.eb + f.fb) := hw ▸ P.isLt
  obtain ⟨r, hback, hstatus, hvalue⟩ := readsBack_float hf hu hwrite hread s hcap
  have hsame : f.roundTrip P.toNat = P.toNat → r.value = P.setWidth 64 := fun h => by
    rw [hvalue, h, zext64, BitVec.ofNat_toNat]
  rw [toNat_extractLsb'_frac]
  refine ⟨r, hback, hstatus, fun h => hvalue.trans (congrArg zext64 h), fun hexp hone => ?_, fun hexp hfrac => ?_,
    fun hexp hne hfrac => ?_⟩
  · exact hsame (roundTrip_normal hf hP hu (mt (expOf_eq_zero_iff f P).1 hexp) hone)
  · exact hsame (roundTrip_subnormal hf hP ((expOf_eq_zero_iff f P).2 hexp) hfrac)
  · obtain ⟨hlt, hscaled⟩ :=
      roundTrip_least hf ((expOf_eq_zero_iff f P).2 hexp) (mt (fracOf_eq_zero_iff f P).1 hne) hfrac
    rw [hvalue, toNat_zext64 (hlt.trans_le (Nat.pow_le_pow_right (by decide) (hw ▸ hw'))), hscaled]

/-- Settles O48: the rows of `readsBack_float_fields` at 8 exponent and 23 fraction bits, and the four constants, whose
round trip is evaluated. -/
theorem floatRoundTrip : Obligations.FloatRoundTrip := by
  intro s P hfinite hcap
  obtain ⟨r, hback, hstatus, hzero, hnormal, hsubnormal, hleast⟩ :=
    readsBack_float_fields (w := 32) rfl (by decide) regular_float32 hfinite (exec_addFloat P) exec_readFloat s
      fun cap hc => Nat.mul_le_mul_left 8 (hcap cap hc)
  refine ⟨r, hback, hstatus, fun hspecial => hzero ?_, fun hexp hpos hneg => hnormal hexp ?_, hsubnormal, hleast⟩
  · rcases hspecial with rfl | rfl | rfl | rfl <;> decide
  · rintro (_ | _) h
    · exact hpos (BitVec.eq_of_toNat_eq h)
    · exact hneg (BitVec.eq_of_toNat_eq h)

/-- Settles O49: the same rows at 11 exponent and 52 fraction bits. -/
theorem doubleRoundTrip : Obligations.DoubleRoundTrip := by
  intro s P hfinite hcap
  obtain ⟨r, hback, hstatus, hzero, hnormal, hsubnormal, hleast⟩ :=
    readsBack_float_fields (w := 64) rfl (by decide) regular_float64 hfinite (exec_addDouble P) exec_readDouble s
      fun cap hc => Nat.mul_le_mul_left 8 (hcap cap hc)
  have hport : P.setWidth 64 = P := BitVec.setWidth_eq P
  refine ⟨r, hback, hstatus, fun hspecial => hzero ?_, fun hexp hpos hneg => (hnormal hexp ?_).trans hport,
    fun hexp hfrac => (hsubnormal hexp hfrac).trans hport, hleast⟩
  · rcases hspecial with rfl | rfl | rfl | rfl <;> decide
  · rintro (_ | _) h
    · exact hpos (BitVec.eq_of_toNat_eq h)
    · exact hneg (BitVec.eq_of_toNat_eq h)

end Sys2Proof.Machine
end

section
/-! PROOFS. The consequences of readString (R162): its result has no zero character and no more than `len` characters, and
its loop never runs out of turns (log entry 15). -/

namespace Sys2Proof.Machine

/-- One turn of readString's loop where the next character is readable: the character is the field at the cursor, and the
loop goes on behind it only where the buffer has more (R161). -/
theorem readChars_turn {s : State} (hr : s.Readable 8) (fuel : Nat) (acc : List Byte) :
    readChars (fuel + 1) acc s =
      if s.fieldAt s.cursor 8 = 0 then .ok acc { s with cursor := s.cursor + 8 }
      else if 8 * s.len ≤ s.cursor + 8 then
        .ok (acc ++ [BitVec.ofNat 8 (s.fieldAt s.cursor 8)]) { s with cursor := s.cursor + 8 }
      else readChars fuel (acc ++ [BitVec.ofNat 8 (s.fieldAt s.cursor 8)]) { s with cursor := s.cursor + 8 } := by
  have hend : s.len ≤ (s.cursor + 8) / 8 ↔ 8 * s.len ≤ s.cursor + 8 := by omega
  rw [readChars_succ, (reads_u 8 s (Nat.le_of_add_right_le hr)).1 hr, Run.ok_bind]
  simp only [State.byteIndex, hend]

/-- The turn where fewer than eight bits are left raises, whatever has been read. -/
theorem readChars_cut {s : State} (hs : s.cursor ≤ 8 * s.len) (hr : ¬ s.Readable 8) (fuel : Nat) (acc : List Byte) :
    readChars (fuel + 1) acc s = .raise .outOfBounds { s with cursor := 8 * s.len } := by
  rw [readChars_succ, (reads_u 8 s hs).2 hr, Run.raise_bind]

/-! ### The turns -/

/-- Inside the buffer, turns for more bits than are left are all alike: each turn that goes on consumes eight bits. -/
theorem readChars_turns (fuel : Nat) : ∀ (fuel' : Nat) (acc : List Byte) (s : State), s.cursor ≤ 8 * s.len →
    8 * s.len < s.cursor + 8 * fuel → 8 * s.len < s.cursor + 8 * fuel' →
    readChars fuel acc s = readChars fuel' acc s := by
  induction fuel with
  | zero => intro fuel' acc s hs hf; omega
  | succ fuel ih =>
    intro fuel' acc s hs hf hf'
    obtain ⟨fuel', rfl⟩ : ∃ k, fuel' = k + 1 := Nat.exists_eq_add_of_le' (by omega)
    by_cases hr : s.Readable 8
    · rw [readChars_turn hr, readChars_turn hr,
        ih fuel' _ { s with cursor := s.cursor + 8 } hr (by simp only; omega) (by simp only; omega)]
    · rw [readChars_cut hs hr, readChars_cut hs hr]

/-- Settles O53: inside the buffer `len + 1` turns are more than the bits left need (`readChars_turns`), and outside it the
first bit step raises (`begins_readChars`). -/
theorem readStringTurnsSuffice : Obligations.ReadStringTurnsSuffice := by
  intro s fuel hfuel
  by_cases hs : s.cursor ≤ 8 * s.len
  · exact readChars_turns fuel (s.len + 1) [] s hs (by omega) (by omega)
  · obtain ⟨k, rfl⟩ : ∃ k, fuel = k + 1 := Nat.exists_eq_add_of_le' (by omega)
    have hout : readBit s = .raise .outOfBounds s := readBit_outside s (by omega)
    rw [(begins_readChars k []).raise hout, (begins_readChars s.len []).raise hout]

/-! ### The result -/

/-- What readString's loop adds to the characters read so far: none of them zero, and eight bits of the buffer each
(R162). -/
theorem readChars_result (fuel : Nat) : ∀ (acc chars : List Byte) (s t : State), s.cursor ≤ 8 * s.len →
    readChars fuel acc s = .ok chars t →
    ∃ new, chars = acc ++ new ∧ (∀ c ∈ new, c ≠ 0) ∧ s.cursor + 8 * new.length ≤ 8 * s.len := by
  induction fuel with
  | zero =>
    intro acc chars s t hs h
    cases h
    exact ⟨[], by simp, by simp, hs⟩
  | succ fuel ih =>
    intro acc chars s t hs h
    by_cases hr : s.Readable 8
    · rw [readChars_turn hr] at h
      split at h
      · cases h
        exact ⟨[], by simp, by simp, hs⟩
      · rename_i hnonzero
        have hchar : BitVec.ofNat 8 (s.fieldAt s.cursor 8) ≠ 0 := fun h0 => hnonzero (by
          have := congrArg BitVec.toNat h0
          rwa [BitVec.toNat_ofNat, Nat.mod_eq_of_lt (fieldAt_lt s 8 s.cursor)] at this)
        split at h
        · cases h
          exact ⟨[_], rfl, by simpa using hchar, hr⟩
        · obtain ⟨new, rfl, hnew, hlength⟩ := ih _ _ { s with cursor := s.cursor + 8 } _ hr h
          refine ⟨_ :: new, List.append_assoc _ _ _, ?_, ?_⟩
          · simpa using ⟨hchar, hnew⟩
          · simp only [List.length_cons] at hlength ⊢
            omega
    · rw [readChars_cut hs hr] at h
      cases h

/-- The whole result, read from the start. -/
theorem readChars_result_of_start {fuel : Nat} {chars : List Byte} {s t : State} (hs : s.cursor ≤ 8 * s.len)
    (h : readChars fuel [] s = .ok chars t) :
    (∀ c ∈ chars, c ≠ 0) ∧ s.cursor + 8 * chars.length ≤ 8 * s.len := by
  obtain ⟨new, hnew, hnonzero, hlength⟩ := readChars_result fuel [] chars s t hs h
  rw [List.nil_append] at hnew
  rw [hnew]
  exact ⟨hnonzero, hlength⟩

/-- Settles O52: a status of 0 says that the loop ended, with the characters of `readChars_result`. -/
theorem readStringResultHasNoZero : Obligations.ReadStringResultHasNoZero := by
  intro s t r hi ht hr hstatus
  rw [exec_readString] at ht
  cases hrun : readChars (s.len + 1) [] s with
  | raise c u =>
    rw [hrun] at ht
    obtain rfl := Host.Outcome.next.inj ht
    obtain rfl := Option.some.inj ((takeFault_lastResponse c _ u).symm.trans hr)
    exact absurd hstatus c.status_ne_zero
  | ok chars u =>
    rw [hrun] at ht
    obtain rfl := Host.Outcome.next.inj ht
    obtain rfl := Option.some.inj ((answered_lastResponse u _ _).symm.trans hr)
    obtain ⟨hnonzero, hlength⟩ := readChars_result_of_start hi.cursorInside hrun
    have hcount : chars.length ≤ s.len := by omega
    exact ⟨hcount, hnonzero, countValue_of_lt⟩

end Sys2Proof.Machine
end
